-- ==== Sys2Proof/Word.lean ====
section
/-! DEFINITION. The word types: the widths spec/10_state.md R21 and spec/42_block_parser.md R140 name. -/

namespace Sys2Proof

/-- One byte of the source or destination space (spec/20_memory.md R60, R61). -/
abbrev Byte := BitVec 8

/-- A PackedColor565 (spec/41_color565.md R120). -/
abbrev Half := BitVec 16

/-- A register or a command word (spec/10_state.md R21, spec/30_encoding.md R90). -/
abbrev Word := BitVec 32

/-- A 64-bit count or the alpha payload (spec/10_state.md R31, spec/42_block_parser.md R143). -/
abbrev DWord := BitVec 64

end Sys2Proof
end

