-- ==== Sys2Proof/Config.lean ====
section
/-! DEFINITION. The implementation parameters of spec/00_scope.md R6 and the free values of
spec/70_reset_and_hazards.md R281, R283, R288. -/

namespace Sys2Proof

/-- `LAYOUT_565`: the field positions in a packed colour (spec/41_color565.md R121). -/
inductive Layout565 where
  /-- red in [15:11], green in [10:5], blue in [4:0] (the default) -/
  | rHigh
  /-- red in [4:0], green in [10:5], blue in [15:11] -/
  | bHigh
  deriving DecidableEq, Repr

/-- `COL_ORDER`: which bit pair of a row byte is column 0 (spec/43_reconstructor.md R161). -/
inductive ColOrder where
  /-- column 0 in the two most significant bits (the default) -/
  | msbFirst
  /-- column 0 in the two least significant bits -/
  | lsbFirst
  deriving DecidableEq, Repr

/-- `EDGE_POLICY`: the output size when a dimension is not a multiple of 4 (spec/44_image_assembler.md R192). -/
inductive EdgePolicy where
  /-- the declared dimensions (the default) -/
  | crop
  /-- the whole tile grid -/
  | overdecode
  deriving DecidableEq, Repr

/-- The parameters of spec/00_scope.md R6 that are open points; the rest are fixed widths and sizes. -/
structure Params where
  layout565  : Layout565
  colOrder   : ColOrder
  edgePolicy : EdgePolicy
  /-- `MAX_BLOCKS`: the image store's capacity in blocks; `none` is unbounded (spec/45_decode.md R226) -/
  maxBlocks  : Option Nat
  deriving DecidableEq, Repr

/-- The defaults of spec/00_scope.md R6. DEDUCED (log 2); unsafe for hardware with other parameters. -/
def Params.default : Params where
  layout565  := .rHigh
  colOrder   := .msbFirst
  edgePolicy := .crop
  maxBlocks  := none

/-- FREE VALUE, DEDUCED, safe (log 8): the n-th value drawn for a host read of a result register while BUSY = 1
(spec/70_reset_and_hazards.md R288). Nothing constrains it. -/
opaque Config.freeWord : Nat → BitVec 32

/-- FREE VALUE, DEDUCED, safe (log 8, log 9): the n-th byte drawn for a host read of DST while BUSY = 1 (R288), or left in DST by
a reset that abandons an ASSEMBLE (spec/70_reset_and_hazards.md R281). Nothing constrains it. -/
opaque Config.freeByte : Nat → BitVec 8

/-- FREE VALUE, DESIGN CHOICE, safe (log 3): how many host actions come between an issue and its completion, a finite number
(spec/70_reset_and_hazards.md R283, R292; spec/93_implementation_defined.md I15). Nothing else constrains it. -/
opaque Config.freeDelay : Nat → Nat

end Sys2Proof
end

