-- ==== Sys2Proof/Syntax.lean ====
section
/-! DEFINITION. What can be said to the block: the eight commands (spec/30_encoding.md R94), the fields of a command
word (R90), the registers (spec/10_state.md R21), the host's actions (spec/70_reset_and_hazards.md R284) and the
statements of a host script (spec/30_encoding.md R106, R107). -/

namespace Sys2Proof

/-- The commands of spec/30_encoding.md R94, one constructor per row of opcode_table.json. A command word carries no
operand (R95), so no constructor has one. -/
inductive Instr where
  | cvt565
  | parseblkDxt1
  | parseblkDxt3
  | recon
  | decodeDxt1
  | decodeDxt3
  | assembleRgb
  | assembleRgba
  deriving DecidableEq, Repr

/-- The block variant, field `V` (spec/30_encoding.md R92). -/
inductive Variant where
  /-- `V = 0`, DXT1, an 8-byte block -/
  | noAlpha
  /-- `V = 1`, DXT3, a 16-byte block -/
  | alpha
  deriving DecidableEq, Repr

/-- The output channels, field `CH` (spec/30_encoding.md R93). -/
inductive Channels where
  /-- `CH = 0`, three bytes a pixel -/
  | rgb
  /-- `CH = 1`, four bytes a pixel -/
  | rgba
  deriving DecidableEq, Repr

/-- The fields of a command word (spec/30_encoding.md R90). -/
structure CmdFields where
  /-- `OP`, bits [3:0] -/
  op       : BitVec 4
  /-- `V`, bit [4] -/
  v        : Bool
  /-- `CH`, bit [5] -/
  ch       : Bool
  /-- bits [31:6] -/
  reserved : BitVec 26
  deriving DecidableEq, Repr

/-- Why a word is not a command: the three cases of spec/30_encoding.md R96, the third one by field. -/
inductive DecodeError where
  /-- `OP` is 0x0 or 0x6 to 0xF -/
  | reservedOp
  /-- a bit of [31:6] is 1 -/
  | reservedBits
  /-- `V` is 1 and the operation has no variant -/
  | unusedVariant
  /-- `CH` is 1 and the operation has no channel count -/
  | unusedChannel
  deriving DecidableEq, Repr

/-- The registers of spec/10_state.md R21. -/
inductive RegName where
  | cmd | status | width | height | srcLen | dstLen | arg0 | res
  | blkCol | blkIdx | blkAlphaLo | blkAlphaHi
  | errPixLo | errPixHi | errReqLo | errReqHi | errAvail
  | imgW | imgH | imgInfo | imgNblk | outLen
  | tile (k : Fin 16)
  deriving DecidableEq, Repr

/-- The access column of spec/10_state.md R21. -/
inductive Access where
  | rw
  | ro
  deriving DecidableEq, Repr

/-- One host action: the host steps of spec/70_reset_and_hazards.md R284, with the polling loop of
spec/30_encoding.md R106 and the host write of DST that R285 and R289 speak of. `bits` is the width of a register
access, `off` a byte offset. -/
inductive HostAct where
  | regRead (bits off : Nat)
  | regWrite (bits off : Nat) (value : Word)
  | poll
  | srcWrite (off : Nat) (bytes : List Byte)
  | dstRead (off n : Nat)
  | dstWrite (off : Nat) (bytes : List Byte)
  | reset
  deriving DecidableEq, Repr

/-- How a script names a register: by its name or by its offset (spec/30_encoding.md R105). -/
inductive RegRef where
  | name (r : RegName)
  | offset (off : Nat)
  deriving DecidableEq, Repr

/-- A statement of a host script (spec/30_encoding.md R106) or a pseudo-instruction (R107). -/
inductive Stmt where
  | wr (r : RegRef) (imm : Word)
  | rd (r : RegRef)
  | poll
  | srcb (off : Nat) (bytes : List Byte)
  | dstr (off n : Nat)
  | run (m : Instr)
  | setimg (w h n : Word)
  | cvt (p : Word)
  deriving DecidableEq, Repr

end Sys2Proof
end

