-- ==== Sys2Proof/Machine/State.lean ====
section
/-! DEFINITION. The machine's state as plain data (spec/10_state.md R20 to R35), its reset (spec/70_reset_and_hazards.md
R280), and the reasons a step can stop. -/

namespace Sys2Proof.Machine

/-- The error codes of `STATUS.ERR` (spec/60_exceptions.md R250). Codes 7 to 15 are never produced, so none is here. -/
inductive ErrCode where
  | ok
  | invalidInput
  | invalidData
  | illegalCommand
  | noImage
  | dstTooSmall
  | capacity
  deriving DecidableEq, Repr

/-- A block record (spec/42_block_parser.md R140). -/
structure BlockRecord where
  colour1 : Half
  colour2 : Half
  indices : Word
  /-- the payload, byte j in bits [8j+7:8j]; 0 for the no-alpha variant -/
  alpha   : DWord
  deriving DecidableEq, Repr

/-- The registers of spec/10_state.md R21 that are stored as such; `STATUS` and the `IMG_*` registers are views of
`State.pending`, `State.done`, `State.err` and `State.img`. DEDUCED, safe (log 18). -/
structure Regs where
  cmd        : Word
  width      : Word
  height     : Word
  srcLen     : Word
  dstLen     : Word
  arg0       : Word
  res        : Word
  blkCol     : Word
  blkIdx     : Word
  blkAlphaLo : Word
  blkAlphaHi : Word
  errPixLo   : Word
  errPixHi   : Word
  errReqLo   : Word
  errReqHi   : Word
  errAvail   : Word
  outLen     : Word
  tile       : Vector Word 16
  deriving DecidableEq, Repr

/-- The image store (spec/10_state.md R30). -/
structure ImageStore where
  /-- `IMG_VALID` -/
  valid   : Bool
  width   : Word
  height  : Word
  variant : Variant
  /-- in row-major tile order (spec/44_image_assembler.md R191) -/
  blocks  : List BlockRecord
  deriving DecidableEq, Repr

/-- A value the host's script recorded (spec/30_encoding.md R106: `RD` and `DSTR`). -/
inductive TraceEntry where
  | reg (off : Nat) (value : Word)
  | dst (off : Nat) (bytes : List Byte)
  deriving DecidableEq, Repr

/-- The whole machine. -/
structure State where
  /-- the implementation's parameters, which no step changes (spec/00_scope.md R6). DESIGN CHOICE, safe (log 1) -/
  params    : Params
  regs      : Regs
  /-- `STATUS.DONE` (spec/10_state.md R24) -/
  done      : Bool
  /-- `STATUS.ERR` (spec/10_state.md R24) -/
  err       : ErrCode
  img       : ImageStore
  /-- the command issued and not yet completed; `STATUS.BUSY` is 1 exactly when there is one (spec/10_state.md R34) -/
  pending   : Option Word
  /-- the source space, in the canonical form of `memWf` (spec/20_memory.md R60); disjoint from `dst` (R65). DEDUCED,
  unsafe where a platform overlaps them (log 12) -/
  src       : List Host.Cell
  /-- the destination space, in the canonical form of `memWf` (spec/20_memory.md R61) -/
  dst       : List Host.Cell
  /-- the host actions still to be done (spec/30_encoding.md R108) -/
  script    : List HostAct
  /-- the values the script recorded, oldest first (spec/70_reset_and_hazards.md R291) -/
  trace     : List TraceEntry
  /-- the violation mark (spec/10_state.md R35) -/
  violation : Bool
  /-- the MODEL's own: how many more host actions come before the engine completes the pending command. DESIGN CHOICE,
  safe (log 3) -/
  delay     : Nat
  /-- the MODEL's own: how many free values have been drawn. DESIGN CHOICE, safe (log 8) -/
  draws     : Nat
  deriving DecidableEq, Repr

/-- Every register at the reset column of spec/10_state.md R21. -/
def Regs.reset : Regs where
  cmd := 0
  width := 0
  height := 0
  srcLen := 0
  dstLen := 0
  arg0 := 0
  res := 0
  blkCol := 0
  blkIdx := 0
  blkAlphaLo := 0
  blkAlphaHi := 0
  errPixLo := 0
  errPixHi := 0
  errReqLo := 0
  errReqHi := 0
  errAvail := 0
  outLen := 0
  tile := Vector.replicate 16 0

/-- The empty image store (spec/10_state.md R30). -/
def ImageStore.empty : ImageStore where
  valid := false
  width := 0
  height := 0
  variant := .noAlpha
  blocks := []

/-- The machine right after reset (spec/70_reset_and_hazards.md R280), with the default parameters (DEDUCED, log 2), nothing
written to SRC or DST, and a host that has nothing to do (DESIGN CHOICE, log 4; unsafe for a run that begins otherwise). -/
def State.reset : State where
  params := Params.default
  regs := Regs.reset
  done := false
  err := .ok
  img := ImageStore.empty
  pending := none
  src := []
  dst := []
  script := []
  trace := []
  violation := false
  delay := 0
  draws := 0

/-- Why the machine stops. -/
inductive Fault where
  /-- Raised by the first step after the host committed a protocol violation and was not at once resetting the block
  (spec/70_reset_and_hazards.md R285: "the run has a fault"). Safe: an implementation may go on in any way. -/
  | hostViolation
  /-- Raised by a host action on SRC or DST that reaches past offset 2^32 - 1, which no offset names
  (spec/20_memory.md R60; DEDUCED, log 7). Safe: the model stops. -/
  | offsetOutOfSpace
  deriving DecidableEq, Repr

/-- Why an instruction has no meaning. -/
inductive Refusal where
  /-- Raised by an arm of `exec` that has no meaning yet; no arm does. Safe. -/
  | notModelled (mnemonic : String)
  deriving DecidableEq, Repr

/-- What a step or a meaning answers. -/
abbrev Result := Host.Outcome State Fault Refusal

end Sys2Proof.Machine
end

