-- ==== Sys2Proof/Machine/Ops.lean ====
section
/-! DEFINITION. The shared operations: bytes of SRC and DST (spec/20_memory.md R60 to R64), issue
(spec/70_reset_and_hazards.md R282), completion and errors, which are the block's trap entry (spec/60_exceptions.md R252).
There is no return from an error (R256). -/

namespace Sys2Proof.Machine

/-- What a byte of SRC or DST that nothing has written reads as. DESIGN CHOICE, unsafe (log 6): the spec gives no
contents. -/
def unlistedByte : Byte := 0

/-- The byte at an offset. -/
def memByte : List Host.Cell → Nat → Byte
  | [], _ => unlistedByte
  | (a, b) :: m, off => if a = off then b else memByte m off

/-- Store one byte, keeping the canonical form of `memWf`. -/
def memStore : List Host.Cell → Nat → Byte → List Host.Cell
  | [], off, v => if v = unlistedByte then [] else [(off, v)]
  | (a, b) :: m, off, v =>
    if off < a then
      if v = unlistedByte then (a, b) :: m else (off, v) :: (a, b) :: m
    else if off = a then
      if v = unlistedByte then m else (off, v) :: m
    else (a, b) :: memStore m off v

/-- Store a sequence of bytes at rising offsets: `MemWrite` of spec/00_scope.md R9 and the host's `SRCB`
(spec/30_encoding.md R106). -/
def memStoreAll : List Host.Cell → Nat → List Byte → List Host.Cell
  | m, _, [] => m
  | m, off, v :: vs => memStoreAll (memStore m off v) (off + 1) vs

/-- `n` bytes from an offset on, in address order. -/
def memSlice (m : List Host.Cell) (off n : Nat) : List Byte := (List.range n).map fun j => memByte m (off + j)

/-- `MemRead(off, n)`: `n` bytes as one little-endian number (spec/00_scope.md R9, spec/20_memory.md R62). -/
def memRead (m : List Host.Cell) (off : Nat) : Nat → Nat
  | 0 => 0
  | n + 1 => memRead m off n + (memByte m (off + n)).toNat * 2 ^ (8 * n)

/-- The canonical form above a bound: offsets rise strictly from `lo` on, lie below 2^32, and no entry says what an
unlisted byte reads as. -/
def memWfFrom : Nat → List Host.Cell → Bool
  | _, [] => true
  | lo, (a, b) :: m => decide (lo ≤ a) && decide (a < 2 ^ 32) && decide (b ≠ unlistedByte) && memWfFrom (a + 1) m

/-- The one canonical form of a byte space: equal spaces are equal lists. Offsets are 32-bit (spec/20_memory.md R60). -/
def memWf (m : List Host.Cell) : Bool := memWfFrom 0 m

/-- `ceil(a / b)` (spec/00_scope.md R8). -/
def ceilDiv (a b : Nat) : Nat := (a + b - 1) / b

/-- `min(n, 2^64 - 1)` in 64 bits (spec/45_decode.md R221, spec/44_image_assembler.md R194). -/
def saturate64 (n : Nat) : DWord := BitVec.ofNat 64 (min n (2 ^ 64 - 1))

/-- Bits [31:0] of a 64-bit value. -/
def lowWord (d : DWord) : Word := d.extractLsb' 0 32

/-- Bits [63:32] of a 64-bit value. -/
def highWord (d : DWord) : Word := d.extractLsb' 32 32

/-- `ERR_REQ <- req` and `ERR_AVAIL <- avail` (spec/10_state.md R31). -/
def Regs.setErrReq (r : Regs) (req : DWord) (avail : Word) : Regs :=
  { r with errReqLo := lowWord req, errReqHi := highWord req, errAvail := avail }

/-- `ERR_PIX <- pix` (spec/10_state.md R31). -/
def Regs.setErrPix (r : Regs) (pix : DWord) : Regs :=
  { r with errPixLo := lowWord pix, errPixHi := highWord pix }

/-- `complete(code)`: the end of every command (spec/60_exceptions.md R252). -/
def State.complete (s : State) (code : ErrCode) : State :=
  { s with pending := none, done := true, err := code }

/-- `raise E(info)`: the listed register writes, then `complete` (spec/00_scope.md R9, spec/60_exceptions.md R252). -/
def State.raise (s : State) (code : ErrCode) (info : Regs) : State :=
  ({ s with regs := info }).complete code

/-- The stored word and the flags of an issue (spec/70_reset_and_hazards.md R282), with the given delay (log 3). -/
def State.issueAfter (s : State) (w : Word) (hostActions : Nat) : State :=
  { s with regs := { s.regs with cmd := w }, pending := some w, done := false, err := .ok, delay := hostActions }

/-- The host's write of a word to `CMD` while BUSY = 0 (spec/70_reset_and_hazards.md R282): how many host actions come
before the completion is a free value (log 3). -/
def State.issue (s : State) (w : Word) : State :=
  { s.issueAfter w (Config.freeDelay s.draws) with draws := s.draws + 1 }

/-- A word issued with the engine's completion as the very next step, in a run without a violation: how
`State.withFetchWord` places an instruction. DESIGN CHOICE, safe (log 4). -/
def State.issueNext (s : State) (w : Word) : State :=
  { s.issueAfter w 0 with violation := false }

/-- The violation mark is set, and nothing else (spec/10_state.md R35, spec/70_reset_and_hazards.md R285). DESIGN CHOICE,
safe (log 5). -/
def State.violate (s : State) : State := { s with violation := true }

/-- The script records a value (spec/30_encoding.md R106). -/
def State.record (s : State) (e : TraceEntry) : State := { s with trace := s.trace ++ [e] }

/-- `n` free values are drawn (log 8). -/
def State.draw (s : State) (n : Nat) : State := { s with draws := s.draws + n }

/-- The host does its next action: `rest` is left of its script, and one host action fewer comes before the completion
(log 3). -/
def State.advance (s : State) (rest : List HostAct) : State := { s with script := rest, delay := s.delay - 1 }

/-- `n` free bytes from the given draw on (log 8). -/
def freeBytes (draws n : Nat) : List Byte := (List.range n).map fun j => Config.freeByte (draws + j)

/-- `STATUS.BUSY` (spec/10_state.md R24, R34). -/
def State.busy (s : State) : Bool := s.pending.isSome

end Sys2Proof.Machine
end

