-- ==== Sys2Proof/Machine/Operands.lean ====
section
/-! DEFINITION. Every operand form of the commands (spec/30_encoding.md R92, R93, R95): whole registers, the halves of
`ARG0` and `BLK_COL`, and the fields `V` and `CH`. -/

namespace Sys2Proof.Machine

/-- Bits [15:0] of a register. -/
def lowHalf (w : Word) : Half := w.extractLsb' 0 16

/-- Bits [31:16] of a register. -/
def highHalf (w : Word) : Half := w.extractLsb' 16 16

/-- `bs(V)`: the block size in bytes (spec/30_encoding.md R92). -/
def blockSize : Variant → Nat
  | .noAlpha => 8
  | .alpha   => 16

/-- `ch`: bytes a pixel (spec/30_encoding.md R93). -/
def channelCount : Channels → Nat
  | .rgb  => 3
  | .rgba => 4

/-- The operand of CVT565 (spec/10_state.md R27): `ARG0[15:0]`; `ARG0[31:16]` is ignored. -/
def packedOperand (s : State) : Half := lowHalf s.regs.arg0

/-- The operand of PARSEBLK (spec/10_state.md R27): all of `ARG0`, a byte offset in SRC. -/
def offsetOperand (s : State) : Nat := s.regs.arg0.toNat

/-- The block record of the registers as RECON reads it (spec/43_reconstructor.md R167): the alpha registers are not
read. -/
def recordOperand (s : State) : BlockRecord where
  colour1 := lowHalf s.regs.blkCol
  colour2 := highHalf s.regs.blkCol
  indices := s.regs.blkIdx
  alpha   := 0

/-- The channel count of an ASSEMBLE, and of no other command (spec/30_encoding.md R93, R94). -/
def destChannels : Instr → Option Channels
  | .cvt565       => none
  | .parseblkDxt1 => none
  | .parseblkDxt3 => none
  | .recon        => none
  | .decodeDxt1   => none
  | .decodeDxt3   => none
  | .assembleRgb  => some .rgb
  | .assembleRgba => some .rgba

end Sys2Proof.Machine
end

