-- ==== Sys2Proof/Machine/BlockParser.lean ====
section
/-! DEFINITION. The block parser and PARSEBLK (spec/42_block_parser.md). -/

namespace Sys2Proof.Machine

/-- Where the endpoints begin in a block: after the 8-byte payload in the alpha variant (spec/42_block_parser.md R143). -/
def colourOffset : Variant → Nat
  | .noAlpha => 0
  | .alpha   => 8

/-- The alpha payload, 0 for the no-alpha variant (spec/42_block_parser.md R140, R143). -/
def parseAlpha (v : Variant) (src : List Host.Cell) (o : Nat) : DWord :=
  match v with
  | .noAlpha => 0
  | .alpha   => BitVec.ofNat 64 (memRead src o 8)

/-- `parseBlock(V, o)` (spec/42_block_parser.md R143). -/
def parseBlock (v : Variant) (src : List Host.Cell) (o : Nat) : BlockRecord where
  colour1 := BitVec.ofNat 16 (memRead src (o + colourOffset v) 2)
  colour2 := BitVec.ofNat 16 (memRead src (o + colourOffset v + 2) 2)
  indices := BitVec.ofNat 32 (memRead src (o + colourOffset v + 4) 4)
  alpha   := parseAlpha v src o

/-- The block record registers hold a record (spec/10_state.md R29, spec/42_block_parser.md R144). -/
def Regs.setRecord (r : Regs) (b : BlockRecord) : Regs :=
  { r with blkCol := b.colour2 ++ b.colour1, blkIdx := b.indices,
           blkAlphaLo := lowWord b.alpha, blkAlphaHi := highWord b.alpha }

/-- `avail`: the bytes of SRC from an offset on, 0 past the end (spec/42_block_parser.md R144). -/
def availFrom (o srcLen : Nat) : Nat := if o ≤ srcLen then srcLen - o else 0

/-- PARSEBLK for a variant (spec/42_block_parser.md R144, R145). -/
def parseBlk (v : Variant) (s : State) : State :=
  if availFrom (offsetOperand s) s.regs.srcLen.toNat < blockSize v then
    s.raise .invalidData (s.regs.setErrReq (BitVec.ofNat 64 (blockSize v))
      (BitVec.ofNat 32 (availFrom (offsetOperand s) s.regs.srcLen.toNat)))
  else
    ({ s with regs := s.regs.setRecord (parseBlock v s.src (offsetOperand s)) }).complete .ok

/-- PARSEBLK.DXT1 (spec/42_block_parser.md R144 with `V = 0`). -/
def execParseblkDxt1 (s : State) : Result := .next (parseBlk .noAlpha s)

/-- PARSEBLK.DXT3 (spec/42_block_parser.md R144 with `V = 1`). -/
def execParseblkDxt3 (s : State) : Result := .next (parseBlk .alpha s)

end Sys2Proof.Machine
end

