-- ==== Sys2Proof/Machine/Color565.lean ====
section
/-! DEFINITION. The packed 565 colour unpacker and CVT565 (spec/41_color565.md). -/

namespace Sys2Proof.Machine

/-- An RGB colour (spec/00_scope.md R10). -/
structure Rgb where
  r : Byte
  g : Byte
  b : Byte
  deriving DecidableEq, Repr

/-- An RGBA colour (spec/00_scope.md R10). -/
structure Rgba where
  r : Byte
  g : Byte
  b : Byte
  a : Byte
  deriving DecidableEq, Repr

/-- `rgba(c)`: alpha 255 (spec/00_scope.md R10). -/
def rgbaOf (c : Rgb) : Rgba := ⟨c.r, c.g, c.b, 255⟩

/-- `pack32(R, G, B, A) = {A, B, G, R}` (spec/00_scope.md R10). -/
def pack32 (c : Rgba) : Word := c.a ++ c.b ++ c.g ++ c.r

/-- The red field (spec/41_color565.md R121). -/
def redField (l : Layout565) (p : Half) : BitVec 5 :=
  match l with
  | .rHigh => p.extractLsb' 11 5
  | .bHigh => p.extractLsb' 0 5

/-- The green field, the same bits in both layouts (spec/41_color565.md R121). -/
def greenField (p : Half) : BitVec 6 := p.extractLsb' 5 6

/-- The blue field (spec/41_color565.md R121). -/
def blueField (l : Layout565) (p : Half) : BitVec 5 :=
  match l with
  | .rHigh => p.extractLsb' 0 5
  | .bHigh => p.extractLsb' 11 5

/-- `expand5` (spec/41_color565.md R122). -/
def expand5 (v : BitVec 5) : Byte := BitVec.ofNat 8 (v.toNat * 255 / 31)

/-- `expand6` (spec/41_color565.md R123). -/
def expand6 (v : BitVec 6) : Byte := BitVec.ofNat 8 (v.toNat * 255 / 63)

/-- `unpack565` (spec/41_color565.md R124). -/
def unpack565 (l : Layout565) (p : Half) : Rgb :=
  ⟨expand5 (redField l p), expand6 (greenField p), expand5 (blueField l p)⟩

/-- CVT565 (spec/41_color565.md R126). -/
def execCvt565 (s : State) : Result :=
  .next (({ s with regs := { s.regs with
    res := pack32 (rgbaOf (unpack565 s.params.layout565 (packedOperand s))) } }).complete .ok)

end Sys2Proof.Machine
end

