-- ==== Sys2Proof/Machine/Reconstructor.lean ====
section
/-! DEFINITION. The index multiplexer, the endpoint interpolator and RECON (spec/43_reconstructor.md). -/

namespace Sys2Proof.Machine

/-- `rowbits(indices, r)` (spec/43_reconstructor.md R160). -/
def rowBits (indices : Word) (r : Nat) : Byte := (indices >>> (8 * r)).setWidth 8

/-- `code(indices, r, c)` (spec/43_reconstructor.md R161). -/
def codeAt (o : ColOrder) (indices : Word) (r c : Nat) : BitVec 2 :=
  match o with
  | .msbFirst => (rowBits indices r >>> (6 - 2 * c)).setWidth 2
  | .lsbFirst => (rowBits indices r >>> (2 * c)).setWidth 2

/-- `interp(i, a, b)` (spec/43_reconstructor.md R164). -/
def interp (i : BitVec 2) (a b : Byte) : Byte :=
  BitVec.ofNat 8 ((i.toNat * a.toNat + (3 - i.toNat) * b.toNat) / 3)

/-- The colour between two endpoints, channel by channel (spec/43_reconstructor.md R165), alpha 255 (R168). -/
def blend (i : BitVec 2) (e1 e2 : Rgb) : Rgba :=
  rgbaOf ⟨interp i e1.r e2.r, interp i e1.g e2.g, interp i e1.b e2.b⟩

/-- `pixel(b, r, c)` (spec/43_reconstructor.md R166). -/
def pixel (p : Params) (b : BlockRecord) (r c : Nat) : Rgba :=
  blend (codeAt p.colOrder b.indices r c) (unpack565 p.layout565 b.colour1) (unpack565 p.layout565 b.colour2)

/-- `tile(b)` packed: in-tile pixel `4r + c` at index `4r + c` (spec/43_reconstructor.md R166, spec/00_scope.md R11). -/
def tileOf (p : Params) (b : BlockRecord) : Vector Word 16 :=
  Vector.ofFn fun k => pack32 (pixel p b (k.val / 4) (k.val % 4))

/-- RECON (spec/43_reconstructor.md R167). -/
def execRecon (s : State) : Result :=
  .next (({ s with regs := { s.regs with tile := tileOf s.params (recordOperand s) } }).complete .ok)

end Sys2Proof.Machine
end

