-- ==== Sys2Proof/Machine/ImageAssembler.lean ====
section
/-! DEFINITION. The tile grid, the tile assembler and ASSEMBLE (spec/44_image_assembler.md). -/

namespace Sys2Proof.Machine

/-- `tc` for a width and `tr` for a height: tiles along one axis (spec/44_image_assembler.md R190). -/
def tilesAlong (n : Nat) : Nat := ceilDiv n 4

/-- `n_blocks` (spec/45_decode.md R222). -/
def blockCount (w h : Nat) : Nat := tilesAlong w * tilesAlong h

/-- `OW` for a width and `OH` for a height (spec/44_image_assembler.md R192). -/
def outDim (e : EdgePolicy) (n : Nat) : Nat :=
  match e with
  | .crop       => n
  | .overdecode => 4 * tilesAlong n

/-- `OW` of the stored image (spec/44_image_assembler.md R192). -/
def outWidth (p : Params) (img : ImageStore) : Nat := outDim p.edgePolicy img.width.toNat

/-- `OH` of the stored image (spec/44_image_assembler.md R192). -/
def outHeight (p : Params) (img : ImageStore) : Nat := outDim p.edgePolicy img.height.toNat

/-- `out_len` (spec/44_image_assembler.md R195). -/
def outLen (p : Params) (img : ImageStore) (ch : Channels) : Nat :=
  outWidth p img * outHeight p img * channelCount ch

/-- The record a store that is too short is read as having; the invariant of the store says none is.
DESIGN CHOICE, unsafe only in states no run reaches (log 11). -/
def absentRecord : BlockRecord := ⟨0, 0, 0, 0⟩

/-- `imgpixel(x, y)` (spec/44_image_assembler.md R193). -/
def imgPixel (p : Params) (img : ImageStore) (x y : Nat) : Rgba :=
  pixel p (img.blocks.getD (y / 4 * tilesAlong img.width.toNat + x / 4) absentRecord) (y % 4) (x % 4)

/-- The bytes of a pixel in the order R, G, B, A (spec/44_image_assembler.md R195). -/
def pixelBytes (ch : Channels) (c : Rgba) : List Byte :=
  match ch with
  | .rgb  => [c.r, c.g, c.b]
  | .rgba => [c.r, c.g, c.b, c.a]

/-- One output scanline (spec/44_image_assembler.md R193, R195). -/
def scanline (p : Params) (img : ImageStore) (ch : Channels) (y : Nat) : List Byte :=
  (List.range (outWidth p img)).flatMap fun x => pixelBytes ch (imgPixel p img x y)

/-- The whole output, row-major, with no padding (spec/44_image_assembler.md R195). -/
def imageBytes (p : Params) (img : ImageStore) (ch : Channels) : List Byte :=
  (List.range (outHeight p img)).flatMap fun y => scanline p img ch y

/-- ASSEMBLE for a channel count (spec/44_image_assembler.md R194, R196). -/
def assemble (ch : Channels) (s : State) : State :=
  if s.img.valid = false then
    s.raise .noImage { s.regs with outLen := 0 }
  else if s.regs.dstLen.toNat < outLen s.params s.img ch then
    s.raise .dstTooSmall
      ({ s.regs with outLen := 0 }.setErrReq (saturate64 (outLen s.params s.img ch)) s.regs.dstLen)
  else
    ({ s with
        dst  := memStoreAll s.dst 0 (imageBytes s.params s.img ch)
        regs := { s.regs with outLen := BitVec.ofNat 32 (outLen s.params s.img ch) } }).complete .ok

/-- ASSEMBLE.RGB (spec/44_image_assembler.md R194 with `CH = 0`). -/
def execAssembleRgb (s : State) : Result := .next (assemble .rgb s)

/-- ASSEMBLE.RGBA (spec/44_image_assembler.md R194 with `CH = 1`). -/
def execAssembleRgba (s : State) : Result := .next (assemble .rgba s)

end Sys2Proof.Machine
end

