-- ==== Sys2Proof/Machine/DecodeEntry.lean ====
section
/-! DEFINITION. The decode entry point DECODE (spec/45_decode.md). -/

namespace Sys2Proof.Machine

/-- `req`: the bytes DECODE requires (spec/45_decode.md R222). -/
def requiredBytes (v : Variant) (w h : Nat) : Nat := blockCount w h * blockSize v

/-- `n > MAX_BLOCKS`, never when the capacity is unbounded (spec/45_decode.md R226). -/
def overCapacity (p : Params) (n : Nat) : Bool :=
  match p.maxBlocks with
  | none   => false
  | some m => decide (m < n)

/-- The block grid, block `k` at offset `k * bs` (spec/45_decode.md R221). -/
def parseGrid (v : Variant) (src : List Host.Cell) (n : Nat) : List BlockRecord :=
  (List.range n).map fun k => parseBlock v src (k * blockSize v)

/-- The error information registers once the InvalidInput check is passed (spec/45_decode.md R223). -/
def decodeInfo (v : Variant) (r : Regs) : Regs :=
  (r.setErrPix (BitVec.ofNat 64 (r.width.toNat * r.height.toNat))).setErrReq
    (saturate64 (requiredBytes v r.width.toNat r.height.toNat)) r.srcLen

/-- The image a DECODE that passes its checks stores (spec/45_decode.md R221). -/
def decodedImage (v : Variant) (s : State) : ImageStore where
  valid   := true
  width   := s.regs.width
  height  := s.regs.height
  variant := v
  blocks  := parseGrid v s.src (blockCount s.regs.width.toNat s.regs.height.toNat)

/-- DECODE for a variant (spec/45_decode.md R221): the store is cleared first (R225), and the checks run in the order
InvalidInput, InvalidData, Capacity (spec/60_exceptions.md R254). -/
def decodeImage (v : Variant) (s : State) : State :=
  let cleared := { s with img := ImageStore.empty }
  if s.regs.width = 0 ∧ s.regs.height = 0 then cleared.complete .invalidInput
  else if s.regs.srcLen.toNat < requiredBytes v s.regs.width.toNat s.regs.height.toNat then
    cleared.raise .invalidData (decodeInfo v s.regs)
  else if overCapacity s.params (blockCount s.regs.width.toNat s.regs.height.toNat) then
    cleared.raise .capacity (decodeInfo v s.regs)
  else ({ s with img := decodedImage v s, regs := decodeInfo v s.regs }).complete .ok

/-- DECODE.DXT1 (spec/45_decode.md R221 with `V = 0`). -/
def execDecodeDxt1 (s : State) : Result := .next (decodeImage .noAlpha s)

/-- DECODE.DXT3 (spec/45_decode.md R221 with `V = 1`). -/
def execDecodeDxt3 (s : State) : Result := .next (decodeImage .alpha s)

end Sys2Proof.Machine
end

