-- ==== Sys2Proof/Machine/Dispatch.lean ====
section
/-! DEFINITION. One arm per command (spec/30_encoding.md R94). -/

namespace Sys2Proof.Machine

/-- What a command does when the engine performs it (spec/70_reset_and_hazards.md R283). -/
def exec (i : Instr) (s : State) : Host.Outcome State Fault Refusal :=
  match i with
  | .cvt565 => Sys2Proof.Machine.execCvt565 s
  | .parseblkDxt1 => Sys2Proof.Machine.execParseblkDxt1 s
  | .parseblkDxt3 => Sys2Proof.Machine.execParseblkDxt3 s
  | .recon => Sys2Proof.Machine.execRecon s
  | .decodeDxt1 => Sys2Proof.Machine.execDecodeDxt1 s
  | .decodeDxt3 => Sys2Proof.Machine.execDecodeDxt3 s
  | .assembleRgb => Sys2Proof.Machine.execAssembleRgb s
  | .assembleRgba => Sys2Proof.Machine.execAssembleRgba s

end Sys2Proof.Machine
end

