-- ==== Sys2Proof/WellFormed.lean ====
section
/-! DEFINITION. Which command words are commands, said field by field (spec/30_encoding.md R91 to R93, R96). Every term
of `Instr` is well-formed, since no command has an operand (R95); what can be ill-formed is a word's fields. -/

namespace Sys2Proof

/-- `OP` is one of the five operations (spec/30_encoding.md R91). -/
def CmdFields.opDefined (f : CmdFields) : Bool := 1 ≤ f.op.toNat && f.op.toNat ≤ 5

/-- Bits [31:6] are 0 (spec/30_encoding.md R90). -/
def CmdFields.reservedClear (f : CmdFields) : Bool := f.reserved = 0

/-- `V` is 1 only where PARSEBLK (2) or DECODE (4) uses it (spec/30_encoding.md R92). -/
def CmdFields.variantUsed (f : CmdFields) : Bool := !f.v || f.op = 2 || f.op = 4

/-- `CH` is 1 only where ASSEMBLE (5) uses it (spec/30_encoding.md R93). -/
def CmdFields.channelUsed (f : CmdFields) : Bool := !f.ch || f.op = 5

/-- None of the three cases of spec/30_encoding.md R96 holds. -/
def CmdFields.wf (f : CmdFields) : Bool :=
  f.opDefined && f.reservedClear && f.variantUsed && f.channelUsed

end Sys2Proof
end

