-- ==== Sys2Proof/Decode.lean ====
section
/-! DEFINITION. Decoding a command word, total on every 32-bit word and rejecting by name (spec/30_encoding.md R90 to R98),
and the encoder, written from the columns of R94. -/

namespace Sys2Proof

/-- The fields of a word (spec/30_encoding.md R90). -/
def fieldsOf (w : Word) : CmdFields where
  op       := w.extractLsb' 0 4
  v        := w.getLsbD 4
  ch       := w.getLsbD 5
  reserved := w.extractLsb' 6 26

/-- The word with the given fields (spec/30_encoding.md R90). -/
def wordOf (f : CmdFields) : Word :=
  f.reserved ++ BitVec.ofBool f.ch ++ BitVec.ofBool f.v ++ f.op

/-- An operation that uses neither `V` nor `CH` (spec/30_encoding.md R96 case 3). -/
def plainOp (f : CmdFields) (i : Instr) : Except DecodeError Instr :=
  if f.v then .error .unusedVariant else if f.ch then .error .unusedChannel else .ok i

/-- An operation that uses `V` (spec/30_encoding.md R92). -/
def variantOp (f : CmdFields) (dxt1 dxt3 : Instr) : Except DecodeError Instr :=
  if f.ch then .error .unusedChannel else .ok (if f.v then dxt3 else dxt1)

/-- An operation that uses `CH` (spec/30_encoding.md R93). -/
def channelOp (f : CmdFields) (rgb rgba : Instr) : Except DecodeError Instr :=
  if f.v then .error .unusedVariant else .ok (if f.ch then rgba else rgb)

/-- `OP` selects the operation (spec/30_encoding.md R91). -/
def selectOp (f : CmdFields) : Except DecodeError Instr :=
  match f.op.toNat with
  | 1 => plainOp f .cvt565
  | 2 => variantOp f .parseblkDxt1 .parseblkDxt3
  | 3 => plainOp f .recon
  | 4 => variantOp f .decodeDxt1 .decodeDxt3
  | 5 => channelOp f .assembleRgb .assembleRgba
  | _ => .error .reservedOp

/-- The decode function of spec/30_encoding.md R98; an error is IllegalCommand (R96). -/
def decode (w : Word) : Except DecodeError Instr :=
  if (fieldsOf w).reserved = 0 then selectOp (fieldsOf w) else .error .reservedBits

/-- The `OP`, `V` and `CH` columns of spec/30_encoding.md R94. -/
def encodeFields : Instr → CmdFields
  | .cvt565       => ⟨1, false, false, 0⟩
  | .parseblkDxt1 => ⟨2, false, false, 0⟩
  | .parseblkDxt3 => ⟨2, true,  false, 0⟩
  | .recon        => ⟨3, false, false, 0⟩
  | .decodeDxt1   => ⟨4, false, false, 0⟩
  | .decodeDxt3   => ⟨4, true,  false, 0⟩
  | .assembleRgb  => ⟨5, false, false, 0⟩
  | .assembleRgba => ⟨5, false, true,  0⟩

/-- The word the host writes to `CMD` for a command (spec/30_encoding.md R94). -/
def encode (i : Instr) : Word := wordOf (encodeFields i)

/-- The command the decoder reads from a word of `nbits` bits numbered as the opcode table numbers them; the block has
one 32-bit word per command (spec/30_encoding.md R90) and its registers have no byte order (spec/20_memory.md R62), so
the word is laid out as it stands. DEDUCED, safe (log 19). -/
def decodeTableWord (nbits w : Nat) : Option Instr :=
  match decode (BitVec.ofNat 32 (w % 2 ^ nbits)) with
  | .ok i    => some i
  | .error _ => none

/-- The mnemonic of a command (spec/30_encoding.md R94, R105). -/
def mnemonic : Instr → String
  | .cvt565       => "CVT565"
  | .parseblkDxt1 => "PARSEBLK.DXT1"
  | .parseblkDxt3 => "PARSEBLK.DXT3"
  | .recon        => "RECON"
  | .decodeDxt1   => "DECODE.DXT1"
  | .decodeDxt3   => "DECODE.DXT3"
  | .assembleRgb  => "ASSEMBLE.RGB"
  | .assembleRgba => "ASSEMBLE.RGBA"

/-- Every command of spec/30_encoding.md R94, in the table's order. -/
def allInstrs : List Instr :=
  [.cvt565, .parseblkDxt1, .parseblkDxt3, .recon, .decodeDxt1, .decodeDxt3, .assembleRgb, .assembleRgba]

/-- Two names that differ at most in the case of their letters (spec/30_encoding.md R105). PRESUMED, safe (log 13). -/
def sameName (a b : String) : Bool := a.toList.map Char.toLower = b.toList.map Char.toLower

/-- The command a mnemonic names, in any case of its letters (spec/30_encoding.md R105). -/
def instrNamed (t : String) : Option Instr := allInstrs.find? fun i => sameName (mnemonic i) t

end Sys2Proof
end

