-- ==== Sys2Proof/Machine/Flags.lean ====
section
/-! DEFINITION. `STATUS` and `IMG_INFO` as the host reads them (spec/10_state.md R24, R30) and the error codes
(spec/60_exceptions.md R250). -/

namespace Sys2Proof.Machine

/-- The code column of spec/60_exceptions.md R250. -/
def errNibble : ErrCode → BitVec 4
  | .ok             => 0
  | .invalidInput   => 1
  | .invalidData    => 2
  | .illegalCommand => 3
  | .noImage        => 4
  | .dstTooSmall    => 5
  | .capacity       => 6

/-- The word of spec/10_state.md R24: ERR in [7:4], a reserved 0, IMG_VALID, DONE, BUSY. -/
def statusOf (busy done valid : Bool) (code : ErrCode) : Word :=
  0#24 ++ errNibble code ++ 0#1 ++ BitVec.ofBool valid ++ BitVec.ofBool done ++ BitVec.ofBool busy

/-- `STATUS` (spec/10_state.md R24). -/
def State.status (s : State) : Word := statusOf s.busy s.done s.img.valid s.err

/-- Field `V` of a word or of `IMG_INFO` as a number (spec/30_encoding.md R92). -/
def variantBit : Variant → Bool
  | .noAlpha => false
  | .alpha   => true

/-- `IMG_INFO`: [0] is the stored variant, [31:1] are zero (spec/10_state.md R21, R30). -/
def imgInfo (img : ImageStore) : Word := 0#31 ++ BitVec.ofBool (variantBit img.variant)

end Sys2Proof.Machine
end

