-- ==== Sys2Proof/Machine/Registers.lean ====
section
/-! DEFINITION. The register map and the values of the registers (spec/10_state.md R21 to R33). -/

namespace Sys2Proof.Machine

/-- The offset column of spec/10_state.md R21. -/
def regOffset : RegName → Nat
  | .cmd        => 0x00
  | .status     => 0x04
  | .width      => 0x08
  | .height     => 0x0C
  | .srcLen     => 0x10
  | .dstLen     => 0x14
  | .arg0       => 0x18
  | .res        => 0x1C
  | .blkCol     => 0x20
  | .blkIdx     => 0x24
  | .blkAlphaLo => 0x28
  | .blkAlphaHi => 0x2C
  | .errPixLo   => 0x30
  | .errPixHi   => 0x34
  | .errReqLo   => 0x38
  | .errReqHi   => 0x3C
  | .errAvail   => 0x40
  | .imgW       => 0x44
  | .imgH       => 0x48
  | .imgInfo    => 0x4C
  | .imgNblk    => 0x50
  | .outLen     => 0x54
  | .tile k     => 0x80 + 4 * k.val

/-- The access column of spec/10_state.md R21. -/
def regAccess : RegName → Access
  | .cmd        => .rw
  | .status     => .ro
  | .width      => .rw
  | .height     => .rw
  | .srcLen     => .rw
  | .dstLen     => .rw
  | .arg0       => .rw
  | .res        => .ro
  | .blkCol     => .rw
  | .blkIdx     => .rw
  | .blkAlphaLo => .rw
  | .blkAlphaHi => .rw
  | .errPixLo   => .ro
  | .errPixHi   => .ro
  | .errReqLo   => .ro
  | .errReqHi   => .ro
  | .errAvail   => .ro
  | .imgW       => .ro
  | .imgH       => .ro
  | .imgInfo    => .ro
  | .imgNblk    => .ro
  | .outLen     => .ro
  | .tile _     => .ro

/-- The name column of spec/10_state.md R21; `TILE[k]` is written `TILE0` to `TILE15` (spec/30_encoding.md R105). -/
def regText : RegName → String
  | .cmd        => "CMD"
  | .status     => "STATUS"
  | .width      => "WIDTH"
  | .height     => "HEIGHT"
  | .srcLen     => "SRC_LEN"
  | .dstLen     => "DST_LEN"
  | .arg0       => "ARG0"
  | .res        => "RES"
  | .blkCol     => "BLK_COL"
  | .blkIdx     => "BLK_IDX"
  | .blkAlphaLo => "BLK_ALPHA_LO"
  | .blkAlphaHi => "BLK_ALPHA_HI"
  | .errPixLo   => "ERR_PIX_LO"
  | .errPixHi   => "ERR_PIX_HI"
  | .errReqLo   => "ERR_REQ_LO"
  | .errReqHi   => "ERR_REQ_HI"
  | .errAvail   => "ERR_AVAIL"
  | .imgW       => "IMG_W"
  | .imgH       => "IMG_H"
  | .imgInfo    => "IMG_INFO"
  | .imgNblk    => "IMG_NBLK"
  | .outLen     => "OUT_LEN"
  | .tile k     => "TILE" ++ k.val.repr

/-- Every register of spec/10_state.md R21, in the map's order. -/
def allRegs : List RegName :=
  [.cmd, .status, .width, .height, .srcLen, .dstLen, .arg0, .res, .blkCol, .blkIdx, .blkAlphaLo, .blkAlphaHi] ++
  [.errPixLo, .errPixHi, .errReqLo, .errReqHi, .errAvail, .imgW, .imgH, .imgInfo, .imgNblk, .outLen] ++
  (List.finRange 16).map .tile

/-- The register at an offset; an offset no register has is unmapped (spec/10_state.md R21). -/
def regAt (off : Nat) : Option RegName := allRegs.find? fun r => regOffset r = off

/-- The register an access reaches: a 32-bit access at a multiple of 4 where a register is mapped
(spec/10_state.md R22). -/
def legalReg (bits off : Nat) : Option RegName :=
  if bits = 32 ∧ off % 4 = 0 then regAt off else none

/-- The 32-bit value of a register (spec/10_state.md R22 to R33). -/
def readReg (s : State) : RegName → Word
  | .cmd        => s.regs.cmd
  | .status     => s.status
  | .width      => s.regs.width
  | .height     => s.regs.height
  | .srcLen     => s.regs.srcLen
  | .dstLen     => s.regs.dstLen
  | .arg0       => s.regs.arg0
  | .res        => s.regs.res
  | .blkCol     => s.regs.blkCol
  | .blkIdx     => s.regs.blkIdx
  | .blkAlphaLo => s.regs.blkAlphaLo
  | .blkAlphaHi => s.regs.blkAlphaHi
  | .errPixLo   => s.regs.errPixLo
  | .errPixHi   => s.regs.errPixHi
  | .errReqLo   => s.regs.errReqLo
  | .errReqHi   => s.regs.errReqHi
  | .errAvail   => s.regs.errAvail
  | .imgW       => s.img.width
  | .imgH       => s.img.height
  | .imgInfo    => imgInfo s.img
  | .imgNblk    => BitVec.ofNat 32 s.img.blocks.length
  | .outLen     => s.regs.outLen
  | .tile k     => s.regs.tile[k]

/-- The host's write of a register that it may write, while BUSY = 0: a write of `CMD` issues the word
(spec/10_state.md R23, spec/70_reset_and_hazards.md R282), any other stores the value. A register the host may not write
is left as it is; `hostRegWrite` makes that write a violation. -/
def writeReg (s : State) (r : RegName) (v : Word) : State :=
  match r with
  | .cmd        => s.issue v
  | .width      => { s with regs := { s.regs with width := v } }
  | .height     => { s with regs := { s.regs with height := v } }
  | .srcLen     => { s with regs := { s.regs with srcLen := v } }
  | .dstLen     => { s with regs := { s.regs with dstLen := v } }
  | .arg0       => { s with regs := { s.regs with arg0 := v } }
  | .blkCol     => { s with regs := { s.regs with blkCol := v } }
  | .blkIdx     => { s with regs := { s.regs with blkIdx := v } }
  | .blkAlphaLo => { s with regs := { s.regs with blkAlphaLo := v } }
  | .blkAlphaHi => { s with regs := { s.regs with blkAlphaHi := v } }
  | .status | .res | .errPixLo | .errPixHi | .errReqLo | .errReqHi | .errAvail => s
  | .imgW | .imgH | .imgInfo | .imgNblk | .outLen | .tile _ => s

/-- What a read gives while BUSY = 1: only `STATUS` and `CMD` are known (spec/70_reset_and_hazards.md R288). -/
def knownWhileBusy : RegName → Bool
  | .cmd | .status => true
  | .width | .height | .srcLen | .dstLen | .arg0 | .res | .blkCol | .blkIdx | .blkAlphaLo | .blkAlphaHi => false
  | .errPixLo | .errPixHi | .errReqLo | .errReqHi | .errAvail => false
  | .imgW | .imgH | .imgInfo | .imgNblk | .outLen | .tile _ => false

end Sys2Proof.Machine
end

