-- ==== Sys2Proof/Machine/HostAgent.lean ====
section
/-! DEFINITION. The host's steps (spec/70_reset_and_hazards.md R280 to R290): register reads and writes, host accesses to
SRC and DST, polling, reset, and the protocol violations. -/

namespace Sys2Proof.Machine

/-- A host register read: a violation where spec/10_state.md R22 forbids it; while BUSY = 1 a free value but for `STATUS`
and `CMD` (spec/70_reset_and_hazards.md R288, log 8); else the register's value (R289). The script records it
(spec/30_encoding.md R106). -/
def hostRegRead (bits off : Nat) (s : State) : Result :=
  match legalReg bits off with
  | none   => .next s.violate
  | some r =>
    if s.busy && !knownWhileBusy r then .next ((s.draw 1).record (.reg off (Config.freeWord s.draws)))
    else .next (s.record (.reg off (readReg s r)))

/-- A host register write: a violation where spec/10_state.md R22 forbids it or while BUSY = 1
(spec/70_reset_and_hazards.md R285 items 1 and 2). -/
def hostRegWrite (bits off : Nat) (v : Word) (s : State) : Result :=
  match legalReg bits off with
  | none   => .next s.violate
  | some r => if regAccess r = .ro ∨ s.busy then .next s.violate else .next (writeReg s r v)

/-- One read of `STATUS` by the polling loop: it polls again while BUSY = 1 (spec/30_encoding.md R106). DESIGN CHOICE, safe
(log 10). -/
def hostPoll (s : State) : Result :=
  if s.busy then .next { s with script := .poll :: s.script } else .next s

/-- Whether `n` bytes from an offset on all have a 32-bit offset (spec/20_memory.md R60). DEDUCED, safe (log 7). -/
def inSpace (off n : Nat) : Bool := off + n ≤ 2 ^ 32

/-- The host stores bytes into SRC: a violation while BUSY = 1, also when there are none (spec/70_reset_and_hazards.md R285
item 3). DEDUCED, safe (log 16). -/
def hostSrcWrite (off : Nat) (bytes : List Byte) (s : State) : Result :=
  if s.busy then .next s.violate
  else if inSpace off bytes.length then .next { s with src := memStoreAll s.src off bytes }
  else .fault .offsetOutOfSpace

/-- The host stores bytes into DST: a violation while BUSY = 1 (spec/70_reset_and_hazards.md R285 item 4; R289 names the
bytes the host left). DEDUCED, safe (log 14, log 16). -/
def hostDstWrite (off : Nat) (bytes : List Byte) (s : State) : Result :=
  if s.busy then .next s.violate
  else if inSpace off bytes.length then .next { s with dst := memStoreAll s.dst off bytes }
  else .fault .offsetOutOfSpace

/-- The host reads bytes of DST: free values while BUSY = 1 (spec/70_reset_and_hazards.md R288, log 8), else what the last
ASSEMBLE or the host left (R289). The script records them (spec/30_encoding.md R106). -/
def hostDstRead (off n : Nat) (s : State) : Result :=
  if inSpace off n then
    if s.busy then .next ((s.draw n).record (.dst off (freeBytes s.draws n)))
    else .next (s.record (.dst off (memSlice s.dst off n)))
  else .fault .offsetOutOfSpace

/-- How many bytes of DST, from offset 0 on, a reset leaves with any value: `min(out_len, DST_LEN)` for a pending
ASSEMBLE, none for any other command (spec/70_reset_and_hazards.md R281). DEDUCED, safe (log 9). -/
def abandonedBytes (s : State) : Nat :=
  match s.pending with
  | none   => 0
  | some w =>
    match decode w with
    | .error _ => 0
    | .ok i    =>
      match destChannels i with
      | none    => 0
      | some ch => min (outLen s.params s.img ch) s.regs.dstLen.toNat

/-- Reset (spec/70_reset_and_hazards.md R280, R281): the block is as after reset; the parameters, SRC, the violation mark
and the host's own progress stay (DEDUCED, safe, log 17), and DST stays but for the bytes of an abandoned ASSEMBLE. -/
def State.resetBlock (s : State) : State :=
  { State.reset with
      params    := s.params
      src       := s.src
      dst       := memStoreAll s.dst 0 (freeBytes s.draws (abandonedBytes s))
      script    := s.script
      trace     := s.trace
      violation := s.violation
      draws     := s.draws + abandonedBytes s }

/-- One host action (spec/70_reset_and_hazards.md R284). -/
def hostAct (a : HostAct) (s : State) : Result :=
  match a with
  | .regRead bits off    => hostRegRead bits off s
  | .regWrite bits off v => hostRegWrite bits off v s
  | .poll                => hostPoll s
  | .srcWrite off bytes  => hostSrcWrite off bytes s
  | .dstRead off n       => hostDstRead off n s
  | .dstWrite off bytes  => hostDstWrite off bytes s
  | .reset               => .next s.resetBlock

end Sys2Proof.Machine
end

