-- ==== Sys2Proof/Machine/Turn.lean ====
section
/-! DEFINITION. The engine's completion step and whose turn it is (spec/70_reset_and_hazards.md R283, R284). -/

namespace Sys2Proof.Machine

/-- The completion of a pending word as one atomic step (spec/70_reset_and_hazards.md R283), however long it takes (R292;
DEDUCED, safe, log 15): the decoded command, or
IllegalCommand, which changes only `STATUS` (spec/30_encoding.md R96). -/
def engineStep (w : Word) (s : State) : Result :=
  match decode w with
  | .ok i    => exec i s
  | .error _ => .next (s.complete .illegalCommand)

/-- The host's next action, or an idle block that keeps its state when the host has none left
(spec/60_exceptions.md R265, spec/70_reset_and_hazards.md R291). DESIGN CHOICE, safe (log 10). -/
def hostStep (s : State) : Result :=
  match s.script with
  | []        => .next s
  | a :: rest => hostAct a (s.advance rest)

/-- The engine moves when a command is pending and either no host action is to come first or the host has none left
(spec/70_reset_and_hazards.md R283). DESIGN CHOICE, safe (log 3). -/
def engineTurn (s : State) : Bool := s.busy && (s.delay == 0 || s.script.isEmpty)

/-- The step in a run without a violation. -/
def cleanStep (s : State) : Result :=
  match s.pending with
  | some w => if engineTurn s then engineStep w s else hostStep s
  | none   => hostStep s

/-- The step after a violation: the host may still reset, which keeps the mark (spec/70_reset_and_hazards.md R280); else
the run has a fault (R285). DESIGN CHOICE, safe (log 5). -/
def markedStep (s : State) : Result :=
  match s.script with
  | .reset :: rest => .next (s.advance rest).resetBlock
  | _              => .fault .hostViolation

/-- One step of the machine: the engine's completion or the host's next action. -/
def machineStep (s : State) : Result := if s.violation then markedStep s else cleanStep s

end Sys2Proof.Machine
end

