-- ==== Sys2Proof/Machine/Step.lean ====
section
/-! DEFINITION. The machine's step, and an instruction placed where the next step runs it. -/

namespace Sys2Proof.Machine

/-- One step (spec/70_reset_and_hazards.md R284). -/
def step (s : State) : Host.Outcome State Fault Refusal := machineStep s

/-- The state with a command word of `nbits` bits issued (spec/70_reset_and_hazards.md R282) and the engine next to move,
so that `step` decodes and performs exactly that word. DESIGN CHOICE, safe (log 4, log 19). -/
def State.withFetchWord (s : State) (nbits w : Nat) : State := s.issueNext (BitVec.ofNat 32 (w % 2 ^ nbits))

end Sys2Proof.Machine
end

