-- ==== Sys2Proof/Machine/Script.lean ====
section
/-! DEFINITION. Host scripts: names, statements, pseudo-instructions and the actions they expand to
(spec/30_encoding.md R105 to R108). -/

namespace Sys2Proof.Machine

/-- The register a name in a script stands for (spec/30_encoding.md R105). -/
def regNamed (t : String) : Option RegName := allRegs.find? fun r => regText r = t

/-- The offset a script's register stands for (spec/30_encoding.md R105). -/
def refOffset : RegRef → Nat
  | .name r     => regOffset r
  | .offset off => off

/-- A 32-bit register write by name: the transaction `(W, offset, value)` (spec/30_encoding.md R106). -/
def writeTo (r : RegName) (v : Word) : HostAct := .regWrite 32 (regOffset r) v

/-- `RUN m` is `WR CMD, word(m)` and then `POLL` (spec/30_encoding.md R107). -/
def runActs (m : Instr) : List HostAct := [writeTo .cmd (encode m), .poll]

/-- The actions of a statement (spec/30_encoding.md R106) or a pseudo-instruction (R107). -/
def expand : Stmt → List HostAct
  | .wr r imm       => [.regWrite 32 (refOffset r) imm]
  | .rd r           => [.regRead 32 (refOffset r)]
  | .poll           => [.poll]
  | .srcb off bytes => [.srcWrite off bytes]
  | .dstr off n     => [.dstRead off n]
  | .run m          => runActs m
  | .setimg w h n   => [writeTo .width w, writeTo .height h, writeTo .srcLen n]
  | .cvt p          => writeTo .arg0 p :: runActs .cvt565

/-- A host program is the sequence of the actions its statements expand to (spec/30_encoding.md R108). -/
def program (stmts : List Stmt) : List HostAct := stmts.flatMap expand

/-- A state with a host program to run. DESIGN CHOICE (log 4). -/
def State.load (s : State) (stmts : List Stmt) : State := { s with script := program stmts }

end Sys2Proof.Machine
end

