-- ==== Sys2Proof/Safety.lean ====
section
/-! DEFINITION. What every state of a run holds, and the end of a run, in the terms the statements use. -/

namespace Sys2Proof.Machine

/-- A block of the stored variant has no payload in the no-alpha variant (spec/42_block_parser.md R140). -/
def blockFits (v : Variant) (b : BlockRecord) : Bool :=
  match v with
  | .noAlpha => b.alpha = 0
  | .alpha   => true

/-- The image store is empty when no image is stored (spec/45_decode.md R225); else it holds one record per tile of a
non-degenerate grid (R224, R227), of its variant, which came from fewer than 2^32 source bytes (R226). -/
def storeWf (img : ImageStore) : Bool :=
  if img.valid then
    decide (img.blocks.length = blockCount img.width.toNat img.height.toNat) &&
    decide (¬(img.width = 0 ∧ img.height = 0)) &&
    decide (img.blocks.length * blockSize img.variant < 2 ^ 32) &&
    img.blocks.all (blockFits img.variant)
  else decide (img = ImageStore.empty)

/-- The image store keeps within its capacity (spec/45_decode.md R226). -/
def capacityWf (p : Params) (img : ImageStore) : Bool := !overCapacity p img.blocks.length

/-- While a command is pending, `CMD` holds it and DONE = 0 and ERR = 0 (spec/10_state.md R23, R24); an error code stands
only beside DONE = 1 (spec/60_exceptions.md R252, R256). -/
def statusWf (s : State) : Bool :=
  match s.pending with
  | some w => decide (s.regs.cmd = w) && !s.done && decide (s.err = .ok)
  | none   => s.done || decide (s.err = .ok)

/-- The invariant of every run. -/
def State.Inv (s : State) : Prop :=
  memWf s.src = true ∧ memWf s.dst = true ∧ storeWf s.img = true ∧ capacityWf s.params s.img = true ∧ statusWf s = true

/-- The end of a run: the host has no action left and BUSY = 0 (spec/70_reset_and_hazards.md R291). -/
def State.ended (s : State) : Bool := s.script.isEmpty && !s.busy

end Sys2Proof.Machine
end

