-- ==== Sys2Proof/Certificates/Slice0/Obligations.lean ====
section
/-! DEFINITION. The statements for the provers, from the numbered rules of spec/. Every statement is for every value of the
parameters of spec/00_scope.md R6, since they stand in the state (log 1). The script, the delay and the draws a statement
mentions are the model's bookkeeping of the host's progress (log 3, 4, 8). -/

open Sys2Proof Sys2Proof.Machine

namespace Sys2Proof.Claims

/-! What the statements say in plain numbers, without the model's functions. -/

/-- The little-endian 16-bit field at an offset (spec/20_memory.md R62). -/
def halfAt (m : List Host.Cell) (off : Nat) : Nat :=
  (memByte m off).toNat + 256 * (memByte m (off + 1)).toNat

/-- The little-endian 32-bit field at an offset (spec/20_memory.md R62). -/
def wordAt (m : List Host.Cell) (off : Nat) : Nat :=
  (memByte m off).toNat + 2 ^ 8 * (memByte m (off + 1)).toNat + 2 ^ 16 * (memByte m (off + 2)).toNat +
    2 ^ 24 * (memByte m (off + 3)).toNat

/-- A record is the block of a variant at an offset (spec/42_block_parser.md R141, R142). -/
def IsBlockAt (v : Variant) (m : List Host.Cell) (off : Nat) (b : BlockRecord) : Prop :=
  match v with
  | .noAlpha =>
    b.colour1.toNat = halfAt m off ∧ b.colour2.toNat = halfAt m (off + 2) ∧ b.indices.toNat = wordAt m (off + 4) ∧
      b.alpha = 0
  | .alpha =>
    b.colour1.toNat = halfAt m (off + 8) ∧ b.colour2.toNat = halfAt m (off + 10) ∧
      b.indices.toNat = wordAt m (off + 12) ∧ b.alpha.toNat = wordAt m off + 2 ^ 32 * wordAt m (off + 4)

/-- The 8-bit red value of a packed colour (spec/41_color565.md R121, R122). -/
def redOf : Layout565 → Nat → Nat
  | .rHigh, p => p / 2048 * 255 / 31
  | .bHigh, p => p % 32 * 255 / 31

/-- The 8-bit green value of a packed colour (spec/41_color565.md R121, R123). -/
def greenOf (p : Nat) : Nat := p / 32 % 64 * 255 / 63

/-- The 8-bit blue value of a packed colour (spec/41_color565.md R121, R122). -/
def blueOf : Layout565 → Nat → Nat
  | .rHigh, p => p % 32 * 255 / 31
  | .bHigh, p => p / 2048 * 255 / 31

/-- `pack32` of a colour with alpha 255, as a number (spec/00_scope.md R10). -/
def packed (r g b : Nat) : Nat := r + 2 ^ 8 * g + 2 ^ 16 * b + 2 ^ 24 * 255

/-- The code of in-tile pixel `(r, c)` as a number (spec/43_reconstructor.md R160, R161). -/
def codeOf : ColOrder → Nat → Nat → Nat → Nat
  | .msbFirst, indices, r, c => indices / 2 ^ (8 * r) % 256 / 2 ^ (6 - 2 * c) % 4
  | .lsbFirst, indices, r, c => indices / 2 ^ (8 * r) % 256 / 2 ^ (2 * c) % 4

/-- The interpolation of spec/43_reconstructor.md R164. -/
def mix (i a b : Nat) : Nat := (i * a + (3 - i) * b) / 3

/-- Channel `k` (R, G, B, A) of the pixel `(r, c)` of a block with endpoints `c1`, `c2` and these indices
(spec/43_reconstructor.md R166, R168). -/
def channelOf (p : Params) (c1 c2 indices r c : Nat) : Nat → Nat
  | 0 => mix (codeOf p.colOrder indices r c) (redOf p.layout565 c1) (redOf p.layout565 c2)
  | 1 => mix (codeOf p.colOrder indices r c) (greenOf c1) (greenOf c2)
  | 2 => mix (codeOf p.colOrder indices r c) (blueOf p.layout565 c1) (blueOf p.layout565 c2)
  | _ => 255

/-- The PARSEBLK of a variant (spec/30_encoding.md R94). -/
def parseCmd : Variant → Instr
  | .noAlpha => .parseblkDxt1
  | .alpha   => .parseblkDxt3

/-- The DECODE of a variant (spec/30_encoding.md R94). -/
def decodeCmd : Variant → Instr
  | .noAlpha => .decodeDxt1
  | .alpha   => .decodeDxt3

/-- The ASSEMBLE of a channel count (spec/30_encoding.md R94). -/
def assembleCmd : Channels → Instr
  | .rgb  => .assembleRgb
  | .rgba => .assembleRgba

/-- `bs` of spec/30_encoding.md R92. -/
def bytesPerBlock : Variant → Nat
  | .noAlpha => 8
  | .alpha   => 16

/-- `ch` of spec/30_encoding.md R93. -/
def bytesPerPixel : Channels → Nat
  | .rgb  => 3
  | .rgba => 4

/-- `n_blocks` of spec/45_decode.md R222 for the dimension registers. -/
def tileCount (s : State) : Nat := (s.regs.width.toNat + 3) / 4 * ((s.regs.height.toNat + 3) / 4)

/-- `OW` of spec/44_image_assembler.md R192. -/
def outputWidth (s : State) : Nat :=
  match s.params.edgePolicy with
  | .crop       => s.img.width.toNat
  | .overdecode => 4 * ((s.img.width.toNat + 3) / 4)

/-- `OH` of spec/44_image_assembler.md R192. -/
def outputHeight (s : State) : Nat :=
  match s.params.edgePolicy with
  | .crop       => s.img.height.toNat
  | .overdecode => 4 * ((s.img.height.toNat + 3) / 4)

/-- `out_len` of spec/44_image_assembler.md R195. -/
def outputLength (s : State) (ch : Channels) : Nat := outputWidth s * outputHeight s * bytesPerPixel ch

/-- The engine is the one to move, with the word `w` to complete (spec/70_reset_and_hazards.md R283). -/
def EngineMoves (s : State) (w : Word) : Prop :=
  s.violation = false ∧ s.pending = some w ∧ (s.delay = 0 ∨ s.script = [])

/-- The host is the one to move, with the action `a` (spec/70_reset_and_hazards.md R284). -/
def HostMoves (s : State) (a : HostAct) (rest : List HostAct) : Prop :=
  s.violation = false ∧ s.script = a :: rest ∧ (s.pending = none ∨ s.delay ≠ 0)

/-- The RW registers of spec/10_state.md R21; every other register is RO. -/
def hostWritable : List RegName :=
  [.cmd, .width, .height, .srcLen, .dstLen, .arg0, .blkCol, .blkIdx, .blkAlphaLo, .blkAlphaHi]

/-- A register access the host may not make (spec/10_state.md R22). -/
def BadAccess (bits off : Nat) : Prop := bits ≠ 32 ∨ off % 4 ≠ 0 ∨ ∀ r, regOffset r ≠ off

/-- The four items of spec/70_reset_and_hazards.md R285. -/
def Forbidden (s : State) : HostAct → Prop
  | .regRead bits off    => BadAccess bits off
  | .regWrite bits off _ => BadAccess bits off ∨ (∃ r, regOffset r = off ∧ r ∉ hostWritable) ∨ s.pending ≠ none
  | .srcWrite _ _        => s.pending ≠ none
  | .dstWrite _ _        => s.pending ≠ none
  | .poll                => False
  | .dstRead _ _         => False
  | .reset               => False

end Sys2Proof.Claims

open Sys2Proof.Claims

/-! ## Encoding -/

/-- spec/30_encoding.md R98: the decode function, total on every word, used at completion. -/
def Obligations.DecodeFollowsTheOpcodeMap : Prop :=
  (decode 0x00000001#32 = .ok .cvt565 ∧ decode 0x00000002#32 = .ok .parseblkDxt1 ∧
    decode 0x00000012#32 = .ok .parseblkDxt3 ∧ decode 0x00000003#32 = .ok .recon ∧
    decode 0x00000004#32 = .ok .decodeDxt1 ∧ decode 0x00000014#32 = .ok .decodeDxt3 ∧
    decode 0x00000005#32 = .ok .assembleRgb ∧ decode 0x00000025#32 = .ok .assembleRgba) ∧
  (∀ w : Word, w ∉ [0x00000001#32, 0x00000002#32, 0x00000012#32, 0x00000003#32, 0x00000004#32, 0x00000014#32,
      0x00000005#32, 0x00000025#32] → ∃ e, decode w = .error e) ∧
  (∀ s w, EngineMoves s w → step s =
    match decode w with
    | .ok i    => exec i s
    | .error _ => .next (s.complete .illegalCommand))

/-- spec/30_encoding.md R94: a command's word decodes to it, and no other word does. -/
def Obligations.DecodeAndEncodeAgree : Prop :=
  (∀ i, decode (encode i) = .ok i) ∧ (∀ w i, decode w = .ok i → encode i = w)

/-- spec/30_encoding.md R96: which words are illegal, that they are issued like any other, and what completing one does. -/
def Obligations.IllegalWordsChangeOnlyStatus : Prop :=
  (∀ w : Word, (∃ e, decode w = .error e) ↔
    (w.toNat % 16 = 0 ∨ 6 ≤ w.toNat % 16) ∨ 64 ≤ w.toNat ∨
    (w.toNat / 16 % 2 = 1 ∧ w.toNat % 16 ≠ 2 ∧ w.toNat % 16 ≠ 4) ∨ (w.toNat / 32 % 2 = 1 ∧ w.toNat % 16 ≠ 5)) ∧
  (∀ s w rest, HostMoves s (.regWrite 32 0 w) rest → s.pending = none → (∃ e, decode w = .error e) →
    ∃ t, step s = .next t ∧ t.regs = { s.regs with cmd := w } ∧ t.pending = some w) ∧
  (∀ s w, EngineMoves s w → (∃ e, decode w = .error e) →
    step s = .next { s with pending := none, done := true, err := .illegalCommand }) ∧
  (∃ e, decode 0x00000000#32 = .error e)

/-- spec/30_encoding.md R90 to R93, R96: a word decodes exactly when its fields are those of a command. -/
def Obligations.FieldsAreWellFormedIffDecoded : Prop :=
  ∀ w : Word, (fieldsOf w).wf = true ↔ ∃ i, decode w = .ok i

/-- spec/30_encoding.md R94: the eight words, bit by bit. -/
def Obligations.EightWordsDecode : Prop :=
  [0b00000000000000000000000000000001#32, 0b00000000000000000000000000000010#32,
    0b00000000000000000000000000010010#32, 0b00000000000000000000000000000011#32,
    0b00000000000000000000000000000100#32, 0b00000000000000000000000000010100#32,
    0b00000000000000000000000000000101#32, 0b00000000000000000000000000100101#32].map decode =
  [.ok .cvt565, .ok .parseblkDxt1, .ok .parseblkDxt3, .ok .recon, .ok .decodeDxt1, .ok .decodeDxt3, .ok .assembleRgb,
    .ok .assembleRgba]

/-- spec/30_encoding.md R105: a command is written by its mnemonic, and a register by its name. -/
def Obligations.NamesStandForCommandsAndRegisters : Prop :=
  (∀ i, instrNamed (mnemonic i) = some i) ∧ (∀ r, regNamed (regText r) = some r)

/-- spec/30_encoding.md R107: what the three pseudo-instructions expand to, in the statements of R106 and in transactions. -/
def Obligations.PseudoInstructionsExpand : Prop :=
  (∀ m, program [.run m] = program [.wr (.name .cmd) (encode m), .poll]) ∧
  (∀ w h n, program [.setimg w h n] =
    program [.wr (.name .width) w, .wr (.name .height) h, .wr (.name .srcLen) n]) ∧
  (∀ p, program [.cvt p] = program [.wr (.name .arg0) p, .run .cvt565]) ∧
  (∀ m, program [.run m] = [.regWrite 32 0x00 (encode m), .poll]) ∧
  (∀ w h n, program [.setimg w h n] = [.regWrite 32 0x08 w, .regWrite 32 0x0C h, .regWrite 32 0x10 n]) ∧
  (∀ p, program [.cvt p] = [.regWrite 32 0x18 p, .regWrite 32 0x00 0x00000001, .poll])

/-! ## Steps and completion -/

/-- spec/70_reset_and_hazards.md R283: when the engine moves and the pending word decodes to `i`, the step is `exec i`;
an instruction placed by `withFetchWord` is performed by the very next step (log 4). -/
def Obligations.StepPerformsTheDecodedCommand : Prop :=
  (∀ s w i, EngineMoves s w → decode w = .ok i → step s = exec i s) ∧
  (∀ (s : State) n w i, decodeTableWord n w = some i → step (s.withFetchWord n w) = exec i (s.withFetchWord n w))

/-- spec/60_exceptions.md R252: every command ends in exactly one `complete`, in the same step as its effects. -/
def Obligations.EveryCommandCompletesOnce : Prop :=
  (∀ i (s : State), ∃ (u : State) (c : ErrCode), exec i s = .next { u with pending := none, done := true, err := c } ∧
    u.pending = s.pending ∧ u.done = s.done ∧ u.err = s.err) ∧
  (∀ s w, EngineMoves s w → ∃ t, step s = .next t ∧ t.pending = none ∧ t.done = true ∧
    (readReg t .status).getLsbD 0 = false ∧ (readReg t .status).getLsbD 1 = true ∧
    (readReg t .status).toNat / 16 = (errNibble t.err).toNat) ∧
  (∀ (s : State) c r, s.raise c r = { s with regs := r, pending := none, done := true, err := c })

/-- spec/10_state.md R24: the fields of `STATUS`; the reserved bits read 0 and `ERR` is one of the codes 0 to 6. -/
def Obligations.StatusReadsItsFields : Prop :=
  ∀ s, ∃ busy done valid code : Nat,
    (readReg s .status).toNat = busy + 2 * done + 4 * valid + 16 * code ∧
    (busy = 1 ∧ s.pending ≠ none ∨ busy = 0 ∧ s.pending = none) ∧
    (done = 1 ∧ s.done = true ∨ done = 0 ∧ s.done = false) ∧
    (valid = 1 ∧ s.img.valid = true ∨ valid = 0 ∧ s.img.valid = false) ∧
    (code = 0 ∧ s.err = .ok ∨ code = 1 ∧ s.err = .invalidInput ∨ code = 2 ∧ s.err = .invalidData ∨
      code = 3 ∧ s.err = .illegalCommand ∨ code = 4 ∧ s.err = .noImage ∨ code = 5 ∧ s.err = .dstTooSmall ∨
      code = 6 ∧ s.err = .capacity)

/-- spec/10_state.md R23, R24: between issue and completion `STATUS` reads BUSY = 1, DONE = 0, ERR = 0, and `CMD` reads the
issued word. -/
def Obligations.BusyStatusWhilePending : Prop :=
  ∀ s w, s.Inv → s.pending = some w →
    (readReg s .status).toNat = 1 + 4 * s.img.valid.toNat ∧ readReg s .cmd = w

/-- spec/70_reset_and_hazards.md R282: an issue stores the word and sets BUSY, and nothing else changes; while BUSY = 1 the
write is a violation. -/
def Obligations.CmdWriteIssues : Prop :=
  (∀ s w rest, HostMoves s (.regWrite 32 0 w) rest → s.pending = none →
    ∃ d k, step s = .next { s with
      regs := { s.regs with cmd := w }, pending := some w, done := false, err := .ok,
      script := rest, delay := d, draws := k }) ∧
  (∀ s w rest, HostMoves s (.regWrite 32 0 w) rest → s.pending ≠ none →
    ∃ t, step s = .next t ∧ t.violation = true)

/-! ## CVT565 -/

/-- spec/41_color565.md R122, R123, R124: the unpacked colour, exactly, under both layouts. -/
def Obligations.UnpackScalesEachField : Prop :=
  (∀ v : BitVec 5, (expand5 v).toNat = v.toNat * 255 / 31) ∧ expand5 0 = 0 ∧ expand5 31 = 255 ∧
  (∀ v : BitVec 6, (expand6 v).toNat = v.toNat * 255 / 63) ∧ expand6 0 = 0 ∧ expand6 63 = 255 ∧
  (∀ l p, (unpack565 l p).r.toNat = redOf l p.toNat ∧ (unpack565 l p).g.toNat = greenOf p.toNat ∧
    (unpack565 l p).b.toNat = blueOf l p.toNat ∧ (rgbaOf (unpack565 l p)).a = 255)

/-- spec/41_color565.md R126: the whole effect of CVT565, and the one word that is it. -/
def Obligations.Cvt565WritesRes : Prop :=
  (∀ w, decode w = .ok .cvt565 ↔ w = 0x00000001#32) ∧
  ∀ s, ∃ v, exec .cvt565 s = .next { s with
      regs := { s.regs with res := v }, pending := none, done := true, err := .ok } ∧
    v.toNat = packed (redOf s.params.layout565 (s.regs.arg0.toNat % 65536)) (greenOf (s.regs.arg0.toNat % 65536))
      (blueOf s.params.layout565 (s.regs.arg0.toNat % 65536))

/-! ## PARSEBLK -/

/-- spec/42_block_parser.md R144 for `V = 0`, with R141: the record of the eight bytes at `ARG0`. -/
def Obligations.ParseblkDxt1WritesRecord : Prop :=
  ∀ s, s.regs.arg0.toNat + 8 ≤ s.regs.srcLen.toNat → ∃ col idx, exec .parseblkDxt1 s = .next { s with
      regs := { s.regs with blkCol := col, blkIdx := idx, blkAlphaLo := 0, blkAlphaHi := 0 },
      pending := none, done := true, err := .ok } ∧
    col.toNat = halfAt s.src s.regs.arg0.toNat + 2 ^ 16 * halfAt s.src (s.regs.arg0.toNat + 2) ∧
    idx.toNat = wordAt s.src (s.regs.arg0.toNat + 4)

/-- spec/42_block_parser.md R144 for `V = 1`, with R142: the record of the sixteen bytes at `ARG0`, the payload first. -/
def Obligations.ParseblkDxt3WritesRecord : Prop :=
  ∀ s, s.regs.arg0.toNat + 16 ≤ s.regs.srcLen.toNat → ∃ col idx lo hi, exec .parseblkDxt3 s = .next { s with
      regs := { s.regs with blkCol := col, blkIdx := idx, blkAlphaLo := lo, blkAlphaHi := hi },
      pending := none, done := true, err := .ok } ∧
    lo.toNat = wordAt s.src s.regs.arg0.toNat ∧ hi.toNat = wordAt s.src (s.regs.arg0.toNat + 4) ∧
    col.toNat = halfAt s.src (s.regs.arg0.toNat + 8) + 2 ^ 16 * halfAt s.src (s.regs.arg0.toNat + 10) ∧
    idx.toNat = wordAt s.src (s.regs.arg0.toNat + 12)

/-- spec/42_block_parser.md R145: a PARSEBLK with too few bytes left records them and changes nothing else. -/
def Obligations.ParseblkFailureRecordsBytes : Prop :=
  ∀ v s, s.regs.srcLen.toNat < s.regs.arg0.toNat + bytesPerBlock v → ∃ req avail, exec (parseCmd v) s = .next { s with
      regs := { s.regs with errReqLo := req, errReqHi := 0, errAvail := avail },
      pending := none, done := true, err := .invalidData } ∧
    req.toNat = bytesPerBlock v ∧ avail.toNat = s.regs.srcLen.toNat - s.regs.arg0.toNat

/-- spec/42_block_parser.md R143: bytes of SRC outside the block do not matter. -/
def Obligations.ParseblkReadsOnlyItsBlock : Prop :=
  ∀ v s m, (∀ k, k < bytesPerBlock v → memByte m (s.regs.arg0.toNat + k) = memByte s.src (s.regs.arg0.toNat + k)) →
    ∃ t, exec (parseCmd v) s = .next t ∧ exec (parseCmd v) { s with src := m } = .next { t with src := m }

/-! ## RECON -/

/-- spec/43_reconstructor.md R162: every bit pair of the indices is the code of exactly one pixel, in both orders. -/
def Obligations.CodesUseEveryBitPairOnce : Prop :=
  (∀ (x : Word) (r c : Nat), r < 4 → c < 4 →
    codeAt .msbFirst x r c = x.extractLsb' (2 * (4 * r + 3 - c)) 2 ∧
    codeAt .lsbFirst x r c = x.extractLsb' (2 * (4 * r + c)) 2) ∧
  (∀ k, k < 16 → (∃! p : Fin 4 × Fin 4, 4 * p.1.val + 3 - p.2.val = k) ∧
    (∃! p : Fin 4 × Fin 4, 4 * p.1.val + p.2.val = k)) ∧
  (∀ o (x : Word) r c, (codeAt o x r c).toNat ≤ 3)

/-- spec/43_reconstructor.md R164: the interpolation, by code. -/
def Obligations.InterpolationByCode : Prop :=
  (∀ (i : BitVec 2) (a b : Byte), (interp i a b).toNat = (i.toNat * a.toNat + (3 - i.toNat) * b.toNat) / 3 ∧
    i.toNat * a.toNat + (3 - i.toNat) * b.toNat ≤ 765) ∧
  (∀ a b : Byte, interp 0 a b = b ∧ (interp 1 a b).toNat = (a.toNat + 2 * b.toNat) / 3 ∧
    (interp 2 a b).toNat = (2 * a.toNat + b.toNat) / 3 ∧ interp 3 a b = a)

/-- spec/43_reconstructor.md R167: the whole effect of RECON, and the one word that is it. -/
def Obligations.ReconWritesTile : Prop :=
  (∀ w, decode w = .ok .recon ↔ w = 0x00000003#32) ∧
  ∀ s, ∃ tl : Vector Word 16, exec .recon s = .next { s with
      regs := { s.regs with tile := tl }, pending := none, done := true, err := .ok } ∧
    ∀ r c : Fin 4, (tl[4 * r.val + c.val]'(by omega)).toNat =
      packed (channelOf s.params (s.regs.blkCol.toNat % 65536) (s.regs.blkCol.toNat / 65536) s.regs.blkIdx.toNat r c 0)
        (channelOf s.params (s.regs.blkCol.toNat % 65536) (s.regs.blkCol.toNat / 65536) s.regs.blkIdx.toNat r c 1)
        (channelOf s.params (s.regs.blkCol.toNat % 65536) (s.regs.blkCol.toNat / 65536) s.regs.blkIdx.toNat r c 2)

/-- spec/43_reconstructor.md R167, corner cases: equal endpoints, all codes 0, all codes 3. -/
def Obligations.ReconCornerCases : Prop :=
  ∀ s t, exec .recon s = .next t →
    (s.regs.blkCol.toNat % 65536 = s.regs.blkCol.toNat / 65536 → ∀ j k : Fin 16, t.regs.tile[j] = t.regs.tile[k]) ∧
    (s.regs.blkIdx = 0 → ∀ k : Fin 16, (t.regs.tile[k]).toNat =
      packed (redOf s.params.layout565 (s.regs.blkCol.toNat / 65536)) (greenOf (s.regs.blkCol.toNat / 65536))
        (blueOf s.params.layout565 (s.regs.blkCol.toNat / 65536))) ∧
    (s.regs.blkIdx = 0xFFFFFFFF#32 → ∀ k : Fin 16, (t.regs.tile[k]).toNat =
      packed (redOf s.params.layout565 (s.regs.blkCol.toNat % 65536)) (greenOf (s.regs.blkCol.toNat % 65536))
        (blueOf s.params.layout565 (s.regs.blkCol.toNat % 65536)))

/-! ## DECODE -/

/-- spec/45_decode.md R221, success: the store holds the dimensions, the variant and every block of the grid, the
information registers the sizes, and nothing else changes. -/
def Obligations.DecodeStoresTheGrid : Prop :=
  ∀ v s, ¬(s.regs.width.toNat = 0 ∧ s.regs.height.toNat = 0) → tileCount s * bytesPerBlock v ≤ s.regs.srcLen.toNat →
    (∀ m, s.params.maxBlocks = some m → tileCount s ≤ m) →
    ∃ bs pl ph rl rh, exec (decodeCmd v) s = .next { s with
        img := ⟨true, s.regs.width, s.regs.height, v, bs⟩,
        regs := { s.regs with
          errPixLo := pl, errPixHi := ph, errReqLo := rl, errReqHi := rh, errAvail := s.regs.srcLen },
        pending := none, done := true, err := .ok } ∧
      pl.toNat + 2 ^ 32 * ph.toNat = s.regs.width.toNat * s.regs.height.toNat ∧
      rl.toNat + 2 ^ 32 * rh.toNat = tileCount s * bytesPerBlock v ∧
      bs.length = tileCount s ∧
      ∀ k b, bs[k]? = some b → IsBlockAt v s.src (k * bytesPerBlock v) b

/-- spec/45_decode.md R221, R222, failure by length: the store is empty, the information registers hold the sizes, the
required count saturated, and nothing else changes. -/
def Obligations.DecodeTooShortIsInvalidData : Prop :=
  ∀ v s, ¬(s.regs.width.toNat = 0 ∧ s.regs.height.toNat = 0) → s.regs.srcLen.toNat < tileCount s * bytesPerBlock v →
    ∃ pl ph rl rh, exec (decodeCmd v) s = .next { s with
        img := ⟨false, 0, 0, .noAlpha, []⟩,
        regs := { s.regs with
          errPixLo := pl, errPixHi := ph, errReqLo := rl, errReqHi := rh, errAvail := s.regs.srcLen },
        pending := none, done := true, err := .invalidData } ∧
      pl.toNat + 2 ^ 32 * ph.toNat = s.regs.width.toNat * s.regs.height.toNat ∧
      rl.toNat + 2 ^ 32 * rh.toNat = min (tileCount s * bytesPerBlock v) (2 ^ 64 - 1)

/-- spec/45_decode.md R223: the information registers after every DECODE, success or not. -/
def Obligations.DecodeRecordsSizes : Prop :=
  ∀ v s t, exec (decodeCmd v) s = .next t →
    (¬(s.regs.width.toNat = 0 ∧ s.regs.height.toNat = 0) →
      t.regs.errPixLo.toNat + 2 ^ 32 * t.regs.errPixHi.toNat = s.regs.width.toNat * s.regs.height.toNat ∧
      t.regs.errReqLo.toNat + 2 ^ 32 * t.regs.errReqHi.toNat = min (tileCount s * bytesPerBlock v) (2 ^ 64 - 1) ∧
      t.regs.errAvail = s.regs.srcLen) ∧
    (s.regs.width.toNat = 0 ∧ s.regs.height.toNat = 0 → t.err = .invalidInput ∧ t.regs = s.regs) ∧
    t.regs.width = s.regs.width ∧ t.regs.height = s.regs.height

/-- spec/45_decode.md R224: both dimensions zero fail whatever the buffer; exactly one zero stores an empty image. -/
def Obligations.DegenerateDimensions : Prop :=
  (∀ v s, s.regs.width = 0 ∧ s.regs.height = 0 → exec (decodeCmd v) s = .next { s with
    img := ⟨false, 0, 0, .noAlpha, []⟩, pending := none, done := true, err := .invalidInput }) ∧
  (∀ v s, (s.regs.width = 0 ∧ s.regs.height ≠ 0 ∨ s.regs.width ≠ 0 ∧ s.regs.height = 0) →
    ∃ t, exec (decodeCmd v) s = .next t ∧ t.err = .ok ∧
      t.img = ⟨true, s.regs.width, s.regs.height, v, []⟩ ∧ t.regs.errReqLo = 0 ∧ t.regs.errReqHi = 0)

/-- spec/45_decode.md R226: when Capacity is raised, that the default never raises it, nor any capacity of 2^29 or more. -/
def Obligations.CapacityError : Prop :=
  (∀ v s m, s.params.maxBlocks = some m → ¬(s.regs.width = 0 ∧ s.regs.height = 0) →
    tileCount s * bytesPerBlock v ≤ s.regs.srcLen.toNat → m < tileCount s →
    ∃ t, exec (decodeCmd v) s = .next t ∧ t.err = .capacity ∧ t.img.valid = false ∧ t.img.blocks = []) ∧
  (∀ v s t, exec (decodeCmd v) s = .next t → (s.params.maxBlocks = none ∨ ∃ m, s.params.maxBlocks = some m ∧ 2 ^ 29 ≤ m) →
    t.err ≠ .capacity) ∧
  (∀ v s, tileCount s * bytesPerBlock v ≤ s.regs.srcLen.toNat →
    tileCount s ≤ s.regs.srcLen.toNat / 8 ∧ s.regs.srcLen.toNat / 8 < 2 ^ 29)

/-- spec/45_decode.md R225: the store after a failed DECODE, and that ASSEMBLE finds no image until a DECODE succeeds. -/
def Obligations.FailedDecodeLeavesNoImage : Prop :=
  (∀ v s t, exec (decodeCmd v) s = .next t → t.err ≠ .ok →
    (readReg t .status).getLsbD 2 = false ∧ readReg t .imgW = 0 ∧ readReg t .imgH = 0 ∧ readReg t .imgNblk = 0 ∧
      readReg t .imgInfo = 0) ∧
  (∀ ch s, s.img.valid = false → ∃ t, exec (assembleCmd ch) s = .next t ∧ t.err = .noImage) ∧
  (∀ s t, step s = .next t → s.img.valid = false → t.img.valid = true →
    ∃ w v, EngineMoves s w ∧ decode w = .ok (decodeCmd v) ∧ t.err = .ok) ∧
  (∀ v s t, exec (decodeCmd v) s = .next t → (t.img.valid = true ↔ t.err = .ok))

/-- spec/45_decode.md R228: the document's three testable properties. -/
def Obligations.DecodeTestableProperties : Prop :=
  (∀ v s, s.regs.width ≠ 0 → s.regs.height ≠ 0 → s.params.maxBlocks = none →
    s.regs.srcLen.toNat = tileCount s * bytesPerBlock v →
    ∃ t, exec (decodeCmd v) s = .next t ∧ t.err = .ok ∧ readReg t .imgW = s.regs.width ∧
      readReg t .imgH = s.regs.height) ∧
  (∀ v s, s.regs.width ≠ 0 → s.regs.height ≠ 0 → s.regs.srcLen.toNat + 1 = tileCount s * bytesPerBlock v →
    ∃ t, exec (decodeCmd v) s = .next t ∧ t.err = .invalidData) ∧
  (∀ v (s : State) (n : Word) m, s.regs.width = 0 → s.regs.height = 0 →
    ∃ t, exec (decodeCmd v) { s with src := m, regs := { s.regs with srcLen := n } } = .next t ∧ t.err = .invalidInput)

/-- spec/45_decode.md R220: a DECODE depends on nothing but the dimensions, `SRC_LEN`, the variant, the capacity and the
required bytes. -/
def Obligations.DecodeDependsOnlyOnItsOperands : Prop :=
  ∀ v s u, s.regs.width = u.regs.width → s.regs.height = u.regs.height → s.regs.srcLen = u.regs.srcLen →
    s.params.maxBlocks = u.params.maxBlocks →
    (∀ off, off < tileCount s * bytesPerBlock v → memByte s.src off = memByte u.src off) →
    ∃ t t', exec (decodeCmd v) s = .next t ∧ exec (decodeCmd v) u = .next t' ∧ t.img = t'.img ∧ t.err = t'.err

/-! ## ASSEMBLE -/

/-- spec/44_image_assembler.md R194, success, with R193 and R195: where each channel of each pixel goes, and that no other
byte and no other state changes. -/
def Obligations.AssembleWritesTheImage : Prop :=
  ∀ ch s, memWf s.dst = true → storeWf s.img = true → s.img.valid = true →
    outputLength s ch ≤ s.regs.dstLen.toNat →
    ∃ d n, exec (assembleCmd ch) s = .next { s with
        dst := d, regs := { s.regs with outLen := n }, pending := none, done := true, err := .ok } ∧
      n.toNat = outputLength s ch ∧
      (∀ x y k, x < outputWidth s → y < outputHeight s → k < bytesPerPixel ch →
        ∃ b, s.img.blocks[y / 4 * ((s.img.width.toNat + 3) / 4) + x / 4]? = some b ∧
          (memByte d ((y * outputWidth s + x) * bytesPerPixel ch + k)).toNat =
            channelOf s.params b.colour1.toNat b.colour2.toNat b.indices.toNat (y % 4) (x % 4) k) ∧
      (∀ off, outputLength s ch ≤ off → memByte d off = memByte s.dst off)

/-- spec/44_image_assembler.md R196: the two failures, in their order; neither writes DST. -/
def Obligations.AssembleFailures : Prop :=
  (∀ ch s, s.img.valid = false → exec (assembleCmd ch) s = .next { s with
    regs := { s.regs with outLen := 0 }, pending := none, done := true, err := .noImage }) ∧
  (∀ ch s, s.img.valid = true → s.regs.dstLen.toNat < outputLength s ch →
    ∃ rl rh, exec (assembleCmd ch) s = .next { s with
        regs := { s.regs with outLen := 0, errReqLo := rl, errReqHi := rh, errAvail := s.regs.dstLen },
        pending := none, done := true, err := .dstTooSmall } ∧
      rl.toNat + 2 ^ 32 * rh.toNat = min (outputLength s ch) (2 ^ 64 - 1))

/-- spec/44_image_assembler.md R197: a one-tile image is the tile read row by row; a two-tile-wide one joins the tiles'
rows. -/
def Obligations.AssembledTilesReadRowByRow : Prop :=
  (∀ ch s b t, memWf s.dst = true → s.img.valid = true → s.img.width = 4 → s.img.height = 4 → s.img.blocks = [b] →
    16 * bytesPerPixel ch ≤ s.regs.dstLen.toNat → exec (assembleCmd ch) s = .next t →
    t.regs.outLen.toNat = 16 * bytesPerPixel ch ∧
    ∀ (q : Fin 16) k, k < bytesPerPixel ch → (memByte t.dst (q.val * bytesPerPixel ch + k)).toNat =
      (tileOf s.params b)[q].toNat / 256 ^ k % 256) ∧
  (∀ ch s b0 b1 t, memWf s.dst = true → s.img.valid = true → s.img.width = 8 → s.img.height = 4 →
    s.img.blocks = [b0, b1] → 32 * bytesPerPixel ch ≤ s.regs.dstLen.toNat → exec (assembleCmd ch) s = .next t →
    t.regs.outLen.toNat = 32 * bytesPerPixel ch ∧
    ∀ (y c : Fin 4) k, k < bytesPerPixel ch →
      (memByte t.dst ((y.val * 8 + c.val) * bytesPerPixel ch + k)).toNat =
        ((tileOf s.params b0)[4 * y.val + c.val]'(by omega)).toNat / 256 ^ k % 256 ∧
      (memByte t.dst ((y.val * 8 + (4 + c.val)) * bytesPerPixel ch + k)).toNat =
        ((tileOf s.params b1)[4 * y.val + c.val]'(by omega)).toNat / 256 ^ k % 256)

/-- spec/44_image_assembler.md R192: the two edge policies agree when both dimensions are multiples of 4. -/
def Obligations.EdgePoliciesAgreeOnWholeTiles : Prop :=
  ∀ ch s e, s.img.width.toNat % 4 = 0 → s.img.height.toNat % 4 = 0 →
    ∃ t, exec (assembleCmd ch) s = .next t ∧
      exec (assembleCmd ch) { s with params := { s.params with edgePolicy := e } } =
        .next { t with params := { s.params with edgePolicy := e } }

/-- spec/44_image_assembler.md R194, spec/43_reconstructor.md R168: an ASSEMBLE reads neither the dimension registers nor
SRC nor the stored variant nor any alpha payload. -/
def Obligations.AssembleIgnoresPayloadAndVariant : Prop :=
  ∀ ch (s : State) (w h : Word) m v (f : BlockRecord → DWord),
    ∃ t, exec (assembleCmd ch) s = .next t ∧
      exec (assembleCmd ch) { s with
        src := m, regs := { s.regs with width := w, height := h },
        img := { s.img with variant := v, blocks := s.img.blocks.map fun b => { b with alpha := f b } } } =
      .next { t with
        src := m, regs := { t.regs with width := w, height := h },
        img := { s.img with variant := v, blocks := s.img.blocks.map fun b => { b with alpha := f b } } }

/-! ## Frames and whole-machine rules of the engine -/

/-- spec/20_memory.md R60, spec/10_state.md R25 to R27, R35: no command changes SRC, `CMD`, `WIDTH`, `HEIGHT`, `SRC_LEN`,
`DST_LEN`, `ARG0`, a parameter, the violation mark or the host's progress. The block record registers, which PARSEBLK writes,
are in `ResultsHaveOneWriter`. -/
def Obligations.CommandsLeaveTheHostSide : Prop :=
  ∀ i s t, exec i s = .next t →
    t.src = s.src ∧ t.params = s.params ∧ t.violation = s.violation ∧ t.script = s.script ∧ t.trace = s.trace ∧
    t.delay = s.delay ∧ t.draws = s.draws ∧
    t.regs.cmd = s.regs.cmd ∧ t.regs.width = s.regs.width ∧ t.regs.height = s.regs.height ∧
    t.regs.srcLen = s.regs.srcLen ∧ t.regs.dstLen = s.regs.dstLen ∧ t.regs.arg0 = s.regs.arg0

/-- spec/20_memory.md R61, the frame of DST: CVT565, PARSEBLK, RECON and DECODE leave every byte of DST, and ASSEMBLE
leaves every byte at or past its output's length, and all of them when it fails. -/
def Obligations.OnlyAssembleWritesDst : Prop :=
  (∀ i s t, exec i s = .next t → i ≠ .assembleRgb → i ≠ .assembleRgba → ∀ off, memByte t.dst off = memByte s.dst off) ∧
  (∀ ch s t, memWf s.dst = true → exec (assembleCmd ch) s = .next t →
    ∀ off, outputLength s ch ≤ off ∨ t.err ≠ .ok → memByte t.dst off = memByte s.dst off)

/-- spec/10_state.md R28 to R33, the frame of the registers and the image store: each result is written by its command
alone. -/
def Obligations.ResultsHaveOneWriter : Prop :=
  ∀ i s t, exec i s = .next t →
    (i ≠ .cvt565 → t.regs.res = s.regs.res) ∧
    (i ≠ .recon → t.regs.tile = s.regs.tile) ∧
    (i ≠ .parseblkDxt1 → i ≠ .parseblkDxt3 → t.regs.blkCol = s.regs.blkCol ∧ t.regs.blkIdx = s.regs.blkIdx ∧
      t.regs.blkAlphaLo = s.regs.blkAlphaLo ∧ t.regs.blkAlphaHi = s.regs.blkAlphaHi) ∧
    (i ≠ .decodeDxt1 → i ≠ .decodeDxt3 → t.img = s.img ∧ t.regs.errPixLo = s.regs.errPixLo ∧
      t.regs.errPixHi = s.regs.errPixHi) ∧
    (i ≠ .assembleRgb → i ≠ .assembleRgba → t.regs.outLen = s.regs.outLen) ∧
    (i = .cvt565 ∨ i = .recon → t.regs.errReqLo = s.regs.errReqLo ∧ t.regs.errReqHi = s.regs.errReqHi ∧
      t.regs.errAvail = s.regs.errAvail)

/-- spec/60_exceptions.md R253: a failing command has exactly its listed error effects. -/
def Obligations.ErrorsArePrecise : Prop :=
  (∀ v s t, exec (decodeCmd v) s = .next t → t.err ≠ .ok → t = { s with
    img := ⟨false, 0, 0, .noAlpha, []⟩, pending := none, done := true, err := t.err,
    regs := { s.regs with errPixLo := t.regs.errPixLo, errPixHi := t.regs.errPixHi, errReqLo := t.regs.errReqLo,
                          errReqHi := t.regs.errReqHi, errAvail := t.regs.errAvail } }) ∧
  (∀ ch s t, exec (assembleCmd ch) s = .next t → t.err ≠ .ok → t = { s with
    pending := none, done := true, err := t.err,
    regs := { s.regs with outLen := 0, errReqLo := t.regs.errReqLo, errReqHi := t.regs.errReqHi,
                          errAvail := t.regs.errAvail } }) ∧
  (∀ v s t, exec (parseCmd v) s = .next t → t.err ≠ .ok → t = { s with
    pending := none, done := true, err := t.err,
    regs := { s.regs with errReqLo := t.regs.errReqLo, errReqHi := t.regs.errReqHi, errAvail := t.regs.errAvail } }) ∧
  (∀ s w e, EngineMoves s w → decode w = .error e → step s = .next { s with
    pending := none, done := true, err := .illegalCommand })

/-- spec/60_exceptions.md R254: the one error a command reports, in the order of the checks. -/
def Obligations.FirstErrorIsReported : Prop :=
  (∀ s w e, EngineMoves s w → decode w = .error e → ∃ t, step s = .next t ∧ t.err = .illegalCommand) ∧
  (∀ v s t, exec (decodeCmd v) s = .next t →
    (s.regs.width = 0 ∧ s.regs.height = 0 → t.err = .invalidInput) ∧
    (¬(s.regs.width = 0 ∧ s.regs.height = 0) →
      (s.regs.srcLen.toNat < tileCount s * bytesPerBlock v → t.err = .invalidData) ∧
      (tileCount s * bytesPerBlock v ≤ s.regs.srcLen.toNat →
        (∀ m, s.params.maxBlocks = some m → m < tileCount s → t.err = .capacity) ∧
        ((∀ m, s.params.maxBlocks = some m → tileCount s ≤ m) → t.err = .ok)))) ∧
  (∀ ch s t, exec (assembleCmd ch) s = .next t → t.err =
    if s.img.valid = false then .noImage
    else if s.regs.dstLen.toNat < outputLength s ch then .dstTooSmall else .ok) ∧
  (∀ v s t, exec (parseCmd v) s = .next t → t.err =
    if s.regs.srcLen.toNat < s.regs.arg0.toNat + bytesPerBlock v then .invalidData else .ok) ∧
  (∀ s t, exec .cvt565 s = .next t ∨ exec .recon s = .next t → t.err = .ok)

/-- spec/20_memory.md R60: no command's outcome depends on a byte of SRC at or past `SRC_LEN`. -/
def Obligations.NoReadPastSrcLen : Prop :=
  ∀ i s m, (∀ off, off < s.regs.srcLen.toNat → memByte m off = memByte s.src off) →
    ∃ t, exec i s = .next t ∧ exec i { s with src := m } = .next { t with src := m }

/-- spec/20_memory.md R61: no command writes a byte of DST at or past `DST_LEN`. -/
def Obligations.NoWritePastDstLen : Prop :=
  ∀ s w t, memWf s.dst = true → EngineMoves s w → step s = .next t →
    ∀ off, s.regs.dstLen.toNat ≤ off → memByte t.dst off = memByte s.dst off

/-- spec/20_memory.md R75: a later host write of SRC changes no parsed or decoded data, nor any RECON or ASSEMBLE of it. -/
def Obligations.DecodedDataAreCopies : Prop :=
  (∀ s off bytes rest t, HostMoves s (.srcWrite off bytes) rest → step s = .next t →
    t.regs = s.regs ∧ t.img = s.img) ∧
  (∀ s m, ∃ t, exec .recon s = .next t ∧ exec .recon { s with src := m } = .next { t with src := m }) ∧
  (∀ ch s m, ∃ t, exec (assembleCmd ch) s = .next t ∧
    exec (assembleCmd ch) { s with src := m } = .next { t with src := m })

/-! ## The host's steps -/

/-- spec/10_state.md R21, with R23 to R33: each register is at its own offset, a multiple of 4 below 0x100, the gaps are
unmapped; which registers are RW; and which stored value each one reads as (`STATUS` is in `StatusReadsItsFields`). -/
def Obligations.RegisterMapIsOneToOne : Prop :=
  ([0x00, 0x04, 0x08, 0x0C, 0x10, 0x14, 0x18, 0x1C, 0x20, 0x24, 0x28, 0x2C].map regAt =
    [RegName.cmd, .status, .width, .height, .srcLen, .dstLen, .arg0, .res, .blkCol, .blkIdx, .blkAlphaLo,
      .blkAlphaHi].map some) ∧
  ([0x30, 0x34, 0x38, 0x3C, 0x40, 0x44, 0x48, 0x4C, 0x50, 0x54].map regAt =
    [RegName.errPixLo, .errPixHi, .errReqLo, .errReqHi, .errAvail, .imgW, .imgH, .imgInfo, .imgNblk, .outLen].map
      some) ∧
  (∀ k : Fin 16, regAt (0x80 + 4 * k.val) = some (.tile k)) ∧
  (∀ r, regAt (regOffset r) = some r) ∧
  (∀ off r, regAt off = some r → regOffset r = off ∧ off % 4 = 0 ∧ off < 0x100) ∧
  (∀ off, 0x58 ≤ off ∧ off < 0x80 ∨ 0xC0 ≤ off → regAt off = none) ∧
  (∀ r, (r ∈ hostWritable → regAccess r = .rw) ∧ (r ∉ hostWritable → regAccess r = .ro)) ∧
  (∀ s, readReg s .cmd = s.regs.cmd ∧ readReg s .width = s.regs.width ∧ readReg s .height = s.regs.height ∧
    readReg s .srcLen = s.regs.srcLen ∧ readReg s .dstLen = s.regs.dstLen ∧ readReg s .arg0 = s.regs.arg0 ∧
    readReg s .res = s.regs.res ∧ readReg s .blkCol = s.regs.blkCol ∧ readReg s .blkIdx = s.regs.blkIdx ∧
    readReg s .blkAlphaLo = s.regs.blkAlphaLo ∧ readReg s .blkAlphaHi = s.regs.blkAlphaHi) ∧
  (∀ s, readReg s .errPixLo = s.regs.errPixLo ∧ readReg s .errPixHi = s.regs.errPixHi ∧
    readReg s .errReqLo = s.regs.errReqLo ∧ readReg s .errReqHi = s.regs.errReqHi ∧
    readReg s .errAvail = s.regs.errAvail ∧ readReg s .outLen = s.regs.outLen ∧
    ∀ k : Fin 16, readReg s (.tile k) = s.regs.tile[k]) ∧
  (∀ s, readReg s .imgW = s.img.width ∧ readReg s .imgH = s.img.height ∧
    (s.img.variant = .noAlpha → readReg s .imgInfo = 0) ∧ (s.img.variant = .alpha → readReg s .imgInfo = 1) ∧
    (s.img.blocks.length < 2 ^ 32 → (readReg s .imgNblk).toNat = s.img.blocks.length))

/-- spec/70_reset_and_hazards.md R285: a host action sets the violation mark exactly when it is one of the four kinds
listed, and a run with the mark has a fault. That the fault is the very next step, unless the host's next action is a reset,
is the model's choice (log 5). -/
def Obligations.ViolationsAreMarkedAndFault : Prop :=
  (∀ s a rest, HostMoves s a rest → Forbidden s a → ∃ t, step s = .next t ∧ t.violation = true) ∧
  (∀ s a rest t, HostMoves s a rest → ¬Forbidden s a → step s = .next t → t.violation = false) ∧
  (∀ s, s.violation = true → (∀ rest, s.script ≠ .reset :: rest) → step s = .fault .hostViolation)

/-- spec/10_state.md R35: the mark is set by a host violation, not by the engine, and never cleared, and no register shows
it. -/
def Obligations.ViolationMarkSticks : Prop :=
  (∀ s a rest, HostMoves s a rest → Forbidden s a → ∃ t, step s = .next t ∧ t.violation = true) ∧
  (∀ s t, step s = .next t → s.violation = true → t.violation = true) ∧
  (∀ s w t, EngineMoves s w → step s = .next t → t.violation = false) ∧
  (∀ s b r, readReg { s with violation := b } r = readReg s r)

/-- spec/70_reset_and_hazards.md R289: reads while BUSY = 0. -/
def Obligations.IdleReadsGiveStoredValues : Prop :=
  (∀ s r rest, HostMoves s (.regRead 32 (regOffset r)) rest → s.pending = none →
    ∃ d, step s = .next { s with
      script := rest, delay := d, trace := s.trace ++ [.reg (regOffset r) (readReg s r)] }) ∧
  (∀ s off n rest, HostMoves s (.dstRead off n) rest → s.pending = none → off + n ≤ 2 ^ 32 →
    ∃ bytes d, step s = .next { s with
        script := rest, delay := d, trace := s.trace ++ [.dst off bytes] } ∧
      bytes.length = n ∧ ∀ k, k < n → bytes[k]? = some (memByte s.dst (off + k)))

/-- spec/70_reset_and_hazards.md R288: reads while BUSY = 1. `STATUS` and `CMD` are known; for any other read there is some
value, and it is no violation. -/
def Obligations.BusyReadsAreFree : Prop :=
  (∀ s w rest, s.Inv → s.pending = some w → HostMoves s (.regRead 32 0x04) rest →
    ∃ v d, step s = .next { s with script := rest, delay := d, trace := s.trace ++ [.reg 0x04 v] } ∧
      v.toNat = 1 + 4 * s.img.valid.toNat) ∧
  (∀ s w rest, s.Inv → s.pending = some w → HostMoves s (.regRead 32 0x00) rest →
    ∃ d, step s = .next { s with script := rest, delay := d, trace := s.trace ++ [.reg 0x00 w] }) ∧
  (∀ s r rest, s.pending ≠ none → r ≠ .status → r ≠ .cmd → HostMoves s (.regRead 32 (regOffset r)) rest →
    ∃ v d k, step s = .next { s with
      script := rest, delay := d, draws := k, trace := s.trace ++ [.reg (regOffset r) v] }) ∧
  (∀ s off n rest, s.pending ≠ none → HostMoves s (.dstRead off n) rest → off + n ≤ 2 ^ 32 →
    ∃ bytes d k, bytes.length = n ∧ step s = .next { s with
      script := rest, delay := d, draws := k, trace := s.trace ++ [.dst off bytes] })

/-- spec/10_state.md R21, R25 to R27, R29: a host write of an RW register other than `CMD` is read back, and every other
register reads as before. -/
def Obligations.RegisterWriteReadsBack : Prop :=
  ∀ s r v rest, HostMoves s (.regWrite 32 (regOffset r) v) rest → s.pending = none → r ∈ hostWritable → r ≠ .cmd →
    ∃ t, step s = .next t ∧ readReg t r = v ∧ (∀ r', r' ≠ r → readReg t r' = readReg s r') ∧
      t.src = s.src ∧ t.dst = s.dst ∧ t.img = s.img ∧ t.pending = none ∧ t.violation = false

/-- spec/30_encoding.md R106, spec/70_reset_and_hazards.md R289: the host's bytes land in order at their offsets, and every
other byte stays. -/
def Obligations.HostStoresItsBytes : Prop :=
  (∀ s off bytes rest, HostMoves s (.srcWrite off bytes) rest → s.pending = none → memWf s.src = true →
    off + bytes.length ≤ 2 ^ 32 → ∃ m d, step s = .next { s with script := rest, delay := d, src := m } ∧
      (∀ k b, bytes[k]? = some b → memByte m (off + k) = b) ∧
      (∀ o, o < off ∨ off + bytes.length ≤ o → memByte m o = memByte s.src o)) ∧
  (∀ s off bytes rest, HostMoves s (.dstWrite off bytes) rest → s.pending = none → memWf s.dst = true →
    off + bytes.length ≤ 2 ^ 32 → ∃ m d, step s = .next { s with script := rest, delay := d, dst := m } ∧
      (∀ k b, bytes[k]? = some b → memByte m (off + k) = b) ∧
      (∀ o, o < off ∨ off + bytes.length ≤ o → memByte m o = memByte s.dst o))

/-- spec/30_encoding.md R106: `POLL` reads `STATUS` until BUSY = 0, one read a step; it records nothing (log 10). -/
def Obligations.PollReadsUntilIdle : Prop :=
  (∀ s rest, HostMoves s .poll rest → s.pending = none → ∃ d, step s = .next { s with script := rest, delay := d }) ∧
  (∀ s rest, HostMoves s .poll rest → s.pending ≠ none → ∃ d, step s = .next { s with delay := d } ∧ d < s.delay)

/-- The model's reading (log 7) of the 32-bit offsets of spec/20_memory.md R60: a host access that reaches past them while
BUSY = 0 stops the run. -/
def Obligations.HostAccessPastTheSpaceFaults : Prop :=
  ∀ s a rest, HostMoves s a rest → s.pending = none →
    ((∃ off bytes, (a = .srcWrite off bytes ∨ a = .dstWrite off bytes) ∧ 2 ^ 32 < off + bytes.length) ∨
      (∃ off n, a = .dstRead off n ∧ 2 ^ 32 < off + n)) → step s = .fault .offsetOutOfSpace

/-- spec/70_reset_and_hazards.md R280: the state after reset, and what a reset leaves alone; a reset while BUSY = 1 may
change bytes of DST (R281, stated apart). -/
def Obligations.ResetState : Prop :=
  (∀ r, readReg State.reset r = 0) ∧ State.reset.pending = none ∧
  State.reset.img = ⟨false, 0, 0, .noAlpha, []⟩ ∧
  (∀ s rest, s.script = .reset :: rest → s.violation = true ∨ s.pending = none ∨ s.delay ≠ 0 →
    ∃ d k, step s = .next { State.reset with
        params := s.params, src := s.src, dst := d, violation := s.violation,
        script := rest, trace := s.trace, draws := k } ∧
      (s.pending = none → d = s.dst))

/-- spec/70_reset_and_hazards.md R281: a reset while BUSY = 1 abandons the command; only the bytes an ASSEMBLE could have
written lose their values. -/
def Obligations.ResetAbandonsTheCommand : Prop :=
  ∀ s w rest n, HostMoves s .reset rest → s.pending = some w → memWf s.dst = true →
    n = (match decode w with
      | .ok .assembleRgb  => min (outputLength s .rgb) s.regs.dstLen.toNat
      | .ok .assembleRgba => min (outputLength s .rgba) s.regs.dstLen.toNat
      | _ => 0) →
    ∃ d k, step s = .next { State.reset with
        params := s.params, src := s.src, dst := d, violation := s.violation,
        script := rest, trace := s.trace, draws := k } ∧
      ∀ off, n ≤ off → memByte d off = memByte s.dst off

/-- The model's choice (log 10) for spec/60_exceptions.md R265 and spec/70_reset_and_hazards.md R291: a run that has ended
stays as it is. -/
def Obligations.EndedRunKeepsItsState : Prop :=
  ∀ s, s.violation = false → s.ended = true → step s = .next s

/-- spec/70_reset_and_hazards.md R283, R287, by the model's delay (log 3): a host that polls sees the completion after
finitely many reads, and polling changes nothing else. -/
def Obligations.PollingReachesTheCompletion : Prop :=
  ∀ (s : State) w rest, s.violation = false → s.pending = some w → s.script = .poll :: rest →
    Host.Core.run core s.delay s = .next { s with delay := 0 } ∧
    ∃ t, Host.Core.run core (s.delay + 1) s = .next t ∧ t.pending = none ∧ t.done = true ∧ t.script = .poll :: rest

/-! ## Invariants -/

/-- spec/00_scope.md R6, spec/70_reset_and_hazards.md R280: no step changes a parameter. -/
def Obligations.ParametersAreFixed : Prop := ∀ s t, step s = .next t → t.params = s.params

/-- The state after reset has the invariant. -/
def Obligations.InvariantAtReset : Prop := State.reset.Inv

/-- Every step keeps the invariant: both byte spaces in canonical form, the image store empty or one record per tile
(spec/45_decode.md R225, R227) within its capacity (R226), and STATUS and CMD in step with the pending command
(spec/10_state.md R24). -/
def Obligations.EveryStepKeepsTheInvariant : Prop := ∀ s t, s.Inv → step s = .next t → t.Inv

/-! ## Host scripts -/

/-- spec/30_encoding.md R106, R108: the transactions each statement of a script expands to, in the order of the statements; a
register is given by its name or its offset (R105). -/
def Obligations.StatementsExpandToTransactions : Prop :=
  (∀ r v, program [.wr (.name r) v] = [.regWrite 32 (regOffset r) v]) ∧
  (∀ off v, program [.wr (.offset off) v] = [.regWrite 32 off v]) ∧
  (∀ r, program [.rd (.name r)] = [.regRead 32 (regOffset r)]) ∧
  (∀ off, program [.rd (.offset off)] = [.regRead 32 off]) ∧
  program [.poll] = [.poll] ∧
  (∀ off bytes, program [.srcb off bytes] = [.srcWrite off bytes]) ∧
  (∀ off n, program [.dstr off n] = [.dstRead off n]) ∧
  (∀ a b, program (a ++ b) = program a ++ program b) ∧
  (∀ (s : State) stmts, s.load stmts = { s with script := program stmts })
end

