-- ==== Sys2Proof/Laws/Memory.lean ====
section
/-! SUPPORT. The byte spaces: a read after a write, the canonical form, and that equal contents are equal lists. -/

namespace Sys2Proof.Machine

theorem memWfFrom_cons {lo a : Nat} {b : Byte} {m : List Host.Cell} :
    memWfFrom lo ((a, b) :: m) = true ↔
      lo ≤ a ∧ a < 2 ^ 32 ∧ b ≠ unlistedByte ∧ memWfFrom (a + 1) m = true := by
  simp [memWfFrom, and_assoc]

theorem memWfFrom_mono {m : List Host.Cell} {lo lo' : Nat} (h : lo' ≤ lo) (hm : memWfFrom lo m = true) :
    memWfFrom lo' m = true := by
  cases m with
  | nil => rfl
  | cons c m =>
    obtain ⟨a, b⟩ := c
    rw [memWfFrom_cons] at hm ⊢
    exact ⟨by omega, hm.2⟩

theorem memWf_nil : memWf [] = true := rfl

/-- Below its first entry a space reads as unlisted. -/
theorem memByte_below {m : List Host.Cell} {lo off : Nat} (hm : memWfFrom lo m = true) (h : off < lo) :
    memByte m off = unlistedByte := by
  induction m generalizing lo with
  | nil => rfl
  | cons c m ih =>
    obtain ⟨a, b⟩ := c
    rw [memWfFrom_cons] at hm
    rw [memByte, if_neg (by omega)]
    exact ih hm.2.2.2 (by omega)

/-- Past the 32-bit offsets a space reads as unlisted. -/
theorem memByte_beyond {m : List Host.Cell} {lo off : Nat} (hm : memWfFrom lo m = true) (h : 2 ^ 32 ≤ off) :
    memByte m off = unlistedByte := by
  induction m generalizing lo with
  | nil => rfl
  | cons c m ih =>
    obtain ⟨a, b⟩ := c
    rw [memWfFrom_cons] at hm
    rw [memByte, if_neg (by omega)]
    exact ih hm.2.2.2

theorem memWfFrom_memStore {m : List Host.Cell} {lo off : Nat} {v : Byte} (hm : memWfFrom lo m = true)
    (hlo : lo ≤ off) (hoff : off < 2 ^ 32) : memWfFrom lo (memStore m off v) = true := by
  induction m generalizing lo with
  | nil =>
    unfold memStore
    split
    · rfl
    · rename_i hv
      exact memWfFrom_cons.mpr ⟨hlo, hoff, hv, rfl⟩
  | cons c m ih =>
    obtain ⟨a, b⟩ := c
    have hc := memWfFrom_cons.mp hm
    unfold memStore
    split
    · split
      · exact hm
      · rename_i hlt hv
        exact memWfFrom_cons.mpr ⟨hlo, hoff, hv, memWfFrom_cons.mpr ⟨by omega, hc.2⟩⟩
    · split
      · split
        · exact memWfFrom_mono (by omega) hc.2.2.2
        · rename_i heq hv
          exact memWfFrom_cons.mpr ⟨hlo, hoff, hv, heq ▸ hc.2.2.2⟩
      · exact memWfFrom_cons.mpr ⟨hc.1, hc.2.1, hc.2.2.1, ih hc.2.2.2 (by omega)⟩

/-- Storing a byte keeps the canonical form. -/
theorem memWf_memStore {m : List Host.Cell} {off : Nat} {v : Byte} (hm : memWf m = true) (hoff : off < 2 ^ 32) :
    memWf (memStore m off v) = true :=
  memWfFrom_memStore hm (Nat.zero_le _) hoff

theorem memByte_memStoreFrom {m : List Host.Cell} {lo off : Nat} {v : Byte} (hm : memWfFrom lo m = true) (o : Nat) :
    memByte (memStore m off v) o = if o = off then v else memByte m o := by
  induction m generalizing lo with
  | nil =>
    unfold memStore
    by_cases ho : o = off
    · subst ho
      split <;> simp_all [memByte]
    · have : off ≠ o := fun h => ho h.symm
      split <;> simp_all [memByte]
  | cons c m ih =>
    obtain ⟨a, b⟩ := c
    have hc := memWfFrom_cons.mp hm
    unfold memStore
    split
    · rename_i hlt
      split
      · rename_i hv
        by_cases ho : o = off
        · subst ho
          rw [if_pos rfl, memByte, if_neg (by omega), memByte_below hc.2.2.2 (by omega), hv]
        · rw [if_neg ho]
      · rw [memByte]
        by_cases ho : o = off
        · simp [ho]
        · rw [if_neg (fun h => ho h.symm), if_neg ho]
    · split
      · rename_i heq
        subst heq
        split
        · rename_i hv
          by_cases ho : o = off
          · subst ho
            rw [if_pos rfl, memByte_below hc.2.2.2 (by omega), hv]
          · rw [if_neg ho, memByte, if_neg (fun h => ho h.symm)]
        · rw [memByte, memByte]
          by_cases ho : o = off
          · simp [ho]
          · rw [if_neg (fun h => ho h.symm), if_neg ho, if_neg (fun h => ho h.symm)]
      · rename_i hge hne
        rw [memByte, memByte, ih hc.2.2.2]
        by_cases ha : a = o
        · subst ha
          rw [if_pos rfl, if_neg (fun h => hne h.symm), if_pos rfl]
        · rw [if_neg ha, if_neg ha]

/-- A read after a store: the stored byte at its offset, every other byte as before. -/
theorem memByte_memStore {m : List Host.Cell} {off : Nat} {v : Byte} (hm : memWf m = true) (o : Nat) :
    memByte (memStore m off v) o = if o = off then v else memByte m o :=
  memByte_memStoreFrom hm o

/-- Storing a sequence keeps the canonical form. -/
theorem memWf_memStoreAll {bytes : List Byte} {m : List Host.Cell} {off : Nat} (hm : memWf m = true)
    (hoff : off + bytes.length ≤ 2 ^ 32) : memWf (memStoreAll m off bytes) = true := by
  induction bytes generalizing m off with
  | nil => exact hm
  | cons v vs ih =>
    rw [List.length_cons] at hoff
    exact ih (memWf_memStore hm (by omega)) (by omega)

theorem memByte_memStoreAll_outside {bytes : List Byte} {m : List Host.Cell} {off o : Nat} (hm : memWf m = true)
    (hoff : off + bytes.length ≤ 2 ^ 32) (ho : o < off ∨ off + bytes.length ≤ o) :
    memByte (memStoreAll m off bytes) o = memByte m o := by
  induction bytes generalizing m off with
  | nil => rfl
  | cons v vs ih =>
    rw [List.length_cons] at hoff ho
    rw [memStoreAll, ih (memWf_memStore hm (by omega)) (by omega) (by omega), memByte_memStore hm, if_neg (by omega)]

/-- A read after a stored sequence, inside it. -/
theorem memByte_memStoreAll_inside {bytes : List Byte} {m : List Host.Cell} {off k : Nat} (hm : memWf m = true)
    (hoff : off + bytes.length ≤ 2 ^ 32) (hk : k < bytes.length) :
    memByte (memStoreAll m off bytes) (off + k) = bytes[k] := by
  induction bytes generalizing m off k with
  | nil => simp at hk
  | cons v vs ih =>
    rw [List.length_cons] at hoff
    have hwf := memWf_memStore (v := v) hm (show off < 2 ^ 32 by omega)
    cases k with
    | zero =>
      rw [memStoreAll, Nat.add_zero, memByte_memStoreAll_outside hwf (by omega) (by omega), memByte_memStore hm]
      simp
    | succ k =>
      have := ih (m := memStore m off v) (off := off + 1) (k := k) hwf (by omega) (by simpa using hk)
      rw [memStoreAll, show off + (k + 1) = off + 1 + k by omega, this]
      rfl

theorem mem_ext_from {m m' : List Host.Cell} {lo : Nat} (hm : memWfFrom lo m = true) (hm' : memWfFrom lo m' = true)
    (h : ∀ off, memByte m off = memByte m' off) : m = m' := by
  induction m generalizing lo m' with
  | nil =>
    cases m' with
    | nil => rfl
    | cons c m' =>
      obtain ⟨a, b⟩ := c
      have := h a
      simp only [memByte, if_true] at this
      exact absurd this.symm (memWfFrom_cons.mp hm').2.2.1
  | cons c m ih =>
    obtain ⟨a, b⟩ := c
    have hc := memWfFrom_cons.mp hm
    cases m' with
    | nil =>
      have := h a
      simp only [memByte, if_true] at this
      exact absurd this hc.2.2.1
    | cons c' m' =>
      obtain ⟨a', b'⟩ := c'
      have hc' := memWfFrom_cons.mp hm'
      have haa : a = a' := by
        rcases Nat.lt_trichotomy a a' with hlt | heq | hgt
        · have := h a
          rw [memByte, if_pos rfl, memByte, if_neg (by omega), memByte_below hc'.2.2.2 (by omega)] at this
          exact absurd this hc.2.2.1
        · exact heq
        · have := h a'
          rw [memByte, if_neg (by omega), memByte_below hc.2.2.2 (by omega), memByte, if_pos rfl] at this
          exact absurd this.symm hc'.2.2.1
      subst haa
      have hbb : b = b' := by
        have := h a
        simpa [memByte] using this
      subst hbb
      congr 1
      refine ih hc.2.2.2 hc'.2.2.2 fun off => ?_
      by_cases ho : a = off
      · subst ho
        rw [memByte_below hc.2.2.2 (by omega), memByte_below hc'.2.2.2 (by omega)]
      · have := h off
        rwa [memByte, if_neg ho, memByte, if_neg ho] at this

/-- Equal contents in the canonical form are equal lists. -/
theorem mem_ext {m m' : List Host.Cell} (hm : memWf m = true) (hm' : memWf m' = true)
    (h : ∀ off, memByte m off = memByte m' off) : m = m' :=
  mem_ext_from hm hm' h

@[simp] theorem memSlice_length (m : List Host.Cell) (off n : Nat) : (memSlice m off n).length = n := by
  simp [memSlice]

@[simp] theorem freeBytes_length (d n : Nat) : (freeBytes d n).length = n := by simp [freeBytes]

/-- A little-endian read of `n` bytes fits in `8n` bits. -/
theorem memRead_lt (m : List Host.Cell) (off n : Nat) : memRead m off n < 2 ^ (8 * n) := by
  induction n with
  | zero => simp [memRead]
  | succ n ih =>
    have hb := (memByte m (off + n)).isLt
    rw [memRead, show 8 * (n + 1) = 8 * n + 8 by omega, Nat.pow_add]
    have : (memByte m (off + n)).toNat * 2 ^ (8 * n) ≤ 255 * 2 ^ (8 * n) := Nat.mul_le_mul_right _ (by omega)
    omega

/-- A little-endian read depends only on the bytes it reads. -/
theorem memRead_congr {m m' : List Host.Cell} {off n : Nat}
    (h : ∀ k, k < n → memByte m (off + k) = memByte m' (off + k)) : memRead m off n = memRead m' off n := by
  induction n with
  | zero => rfl
  | succ n ih => rw [memRead, memRead, ih fun k hk => h k (by omega), h n (by omega)]

end Sys2Proof.Machine
end

