-- ==== Sys2Proof/Laws/Assembler.lean ====
section
/-! SUPPORT. The flattened output: its length, and which byte stands where (spec/44_image_assembler.md R195). -/

namespace Sys2Proof.Machine

/-- Equal pieces joined: the length. -/
theorem length_flatMap_range {α : Type} {n k : Nat} {f : Nat → List α} (h : ∀ i, i < n → (f i).length = k) :
    ((List.range n).flatMap f).length = n * k := by
  induction n with
  | zero => simp
  | succ n ih =>
    rw [List.range_succ, List.flatMap_append, List.length_append, ih fun i hi => h i (by omega), Nat.succ_mul]
    simp [h n (by omega)]

/-- Equal pieces joined: element `j` of piece `i` stands at `i * k + j`. -/
theorem getElem?_flatMap_range {α : Type} {n k : Nat} {f : Nat → List α} (h : ∀ i, i < n → (f i).length = k)
    {i j : Nat} (hi : i < n) (hj : j < k) : ((List.range n).flatMap f)[i * k + j]? = (f i)[j]? := by
  induction n with
  | zero => omega
  | succ n ih =>
    have hlen := length_flatMap_range (f := f) (n := n) (k := k) fun i hi => h i (by omega)
    rw [List.range_succ, List.flatMap_append]
    by_cases hin : i < n
    · rw [List.getElem?_append_left, ih (fun i hi => h i (by omega)) hin]
      rw [hlen]
      calc i * k + j < i * k + k := by omega
        _ = (i + 1) * k := by rw [Nat.succ_mul]
        _ ≤ n * k := Nat.mul_le_mul_right _ hin
    · have hieq : i = n := by omega
      subst hieq
      rw [List.getElem?_append_right (by rw [hlen]; omega), hlen]
      simp

@[simp] theorem pixelBytes_length (ch : Channels) (c : Rgba) : (pixelBytes ch c).length = channelCount ch := by
  cases ch <;> rfl

@[simp] theorem scanline_length (p : Params) (img : ImageStore) (ch : Channels) (y : Nat) :
    (scanline p img ch y).length = outWidth p img * channelCount ch :=
  length_flatMap_range fun _ _ => pixelBytes_length _ _

/-- The output has `out_len` bytes (spec/44_image_assembler.md R195). -/
@[simp] theorem imageBytes_length (p : Params) (img : ImageStore) (ch : Channels) :
    (imageBytes p img ch).length = outLen p img ch := by
  rw [imageBytes, length_flatMap_range fun _ _ => scanline_length p img ch _, outLen]
  rw [Nat.mul_comm (outWidth p img) (outHeight p img), Nat.mul_assoc]

/-- The byte of channel `k` of pixel `(x, y)` stands at `(y * OW + x) * ch + k` (spec/44_image_assembler.md R195). -/
theorem imageBytes_getElem? {p : Params} {img : ImageStore} {ch : Channels} {x y k : Nat} (hx : x < outWidth p img)
    (hy : y < outHeight p img) (hk : k < channelCount ch) :
    (imageBytes p img ch)[(y * outWidth p img + x) * channelCount ch + k]? =
      (pixelBytes ch (imgPixel p img x y))[k]? := by
  have hrow : (y * outWidth p img + x) * channelCount ch + k =
      y * (outWidth p img * channelCount ch) + (x * channelCount ch + k) := by
    rw [Nat.add_mul, Nat.mul_assoc]; omega
  have hin : x * channelCount ch + k < outWidth p img * channelCount ch := by
    calc x * channelCount ch + k < x * channelCount ch + channelCount ch := by omega
      _ = (x + 1) * channelCount ch := by rw [Nat.succ_mul]
      _ ≤ outWidth p img * channelCount ch := Nat.mul_le_mul_right _ hx
  rw [hrow, imageBytes, getElem?_flatMap_range (fun _ _ => scanline_length p img ch _) hy hin, scanline,
    getElem?_flatMap_range (fun _ _ => pixelBytes_length _ _) hx hk]

/-- Every byte position of the output lies below `out_len`. -/
theorem pixelByte_lt_outLen {p : Params} {img : ImageStore} {ch : Channels} {x y k : Nat} (hx : x < outWidth p img)
    (hy : y < outHeight p img) (hk : k < channelCount ch) :
    (y * outWidth p img + x) * channelCount ch + k < outLen p img ch := by
  have h1 : y * outWidth p img + x < outHeight p img * outWidth p img := by
    calc y * outWidth p img + x < y * outWidth p img + outWidth p img := by omega
      _ = (y + 1) * outWidth p img := by rw [Nat.succ_mul]
      _ ≤ outHeight p img * outWidth p img := Nat.mul_le_mul_right _ hy
  rw [outLen, Nat.mul_comm (outWidth p img)]
  calc (y * outWidth p img + x) * channelCount ch + k
      < (y * outWidth p img + x) * channelCount ch + channelCount ch := by omega
    _ = (y * outWidth p img + x + 1) * channelCount ch := by rw [Nat.succ_mul]
    _ ≤ outHeight p img * outWidth p img * channelCount ch := Nat.mul_le_mul_right _ h1

end Sys2Proof.Machine
end

