-- ==== Sys2Proof/Laws/State.lean ====
section
/-! SUPPORT. One lemma per field per update: what each shared operation makes of every field. -/

namespace Sys2Proof.Machine

/-! `State.complete` -/

@[simp] theorem State.complete_params (s : State) (c : ErrCode) : (s.complete c).params = s.params := rfl
@[simp] theorem State.complete_regs (s : State) (c : ErrCode) : (s.complete c).regs = s.regs := rfl
@[simp] theorem State.complete_done (s : State) (c : ErrCode) : (s.complete c).done = true := rfl
@[simp] theorem State.complete_err (s : State) (c : ErrCode) : (s.complete c).err = c := rfl
@[simp] theorem State.complete_img (s : State) (c : ErrCode) : (s.complete c).img = s.img := rfl
@[simp] theorem State.complete_pending (s : State) (c : ErrCode) : (s.complete c).pending = none := rfl
@[simp] theorem State.complete_src (s : State) (c : ErrCode) : (s.complete c).src = s.src := rfl
@[simp] theorem State.complete_dst (s : State) (c : ErrCode) : (s.complete c).dst = s.dst := rfl
@[simp] theorem State.complete_script (s : State) (c : ErrCode) : (s.complete c).script = s.script := rfl
@[simp] theorem State.complete_trace (s : State) (c : ErrCode) : (s.complete c).trace = s.trace := rfl
@[simp] theorem State.complete_violation (s : State) (c : ErrCode) : (s.complete c).violation = s.violation := rfl
@[simp] theorem State.complete_delay (s : State) (c : ErrCode) : (s.complete c).delay = s.delay := rfl
@[simp] theorem State.complete_draws (s : State) (c : ErrCode) : (s.complete c).draws = s.draws := rfl

/-! `State.raise` -/

@[simp] theorem State.raise_params (s : State) (c : ErrCode) (r : Regs) : (s.raise c r).params = s.params := rfl
@[simp] theorem State.raise_regs (s : State) (c : ErrCode) (r : Regs) : (s.raise c r).regs = r := rfl
@[simp] theorem State.raise_done (s : State) (c : ErrCode) (r : Regs) : (s.raise c r).done = true := rfl
@[simp] theorem State.raise_err (s : State) (c : ErrCode) (r : Regs) : (s.raise c r).err = c := rfl
@[simp] theorem State.raise_img (s : State) (c : ErrCode) (r : Regs) : (s.raise c r).img = s.img := rfl
@[simp] theorem State.raise_pending (s : State) (c : ErrCode) (r : Regs) : (s.raise c r).pending = none := rfl
@[simp] theorem State.raise_src (s : State) (c : ErrCode) (r : Regs) : (s.raise c r).src = s.src := rfl
@[simp] theorem State.raise_dst (s : State) (c : ErrCode) (r : Regs) : (s.raise c r).dst = s.dst := rfl
@[simp] theorem State.raise_script (s : State) (c : ErrCode) (r : Regs) : (s.raise c r).script = s.script := rfl
@[simp] theorem State.raise_trace (s : State) (c : ErrCode) (r : Regs) : (s.raise c r).trace = s.trace := rfl
@[simp] theorem State.raise_violation (s : State) (c : ErrCode) (r : Regs) : (s.raise c r).violation = s.violation := rfl
@[simp] theorem State.raise_delay (s : State) (c : ErrCode) (r : Regs) : (s.raise c r).delay = s.delay := rfl
@[simp] theorem State.raise_draws (s : State) (c : ErrCode) (r : Regs) : (s.raise c r).draws = s.draws := rfl

/-! `State.issueAfter` -/

@[simp] theorem State.issueAfter_params (s : State) (w : Word) (d : Nat) : (s.issueAfter w d).params = s.params := rfl
@[simp] theorem State.issueAfter_regs (s : State) (w : Word) (d : Nat) : (s.issueAfter w d).regs = { s.regs with cmd := w } := rfl
@[simp] theorem State.issueAfter_done (s : State) (w : Word) (d : Nat) : (s.issueAfter w d).done = false := rfl
@[simp] theorem State.issueAfter_err (s : State) (w : Word) (d : Nat) : (s.issueAfter w d).err = .ok := rfl
@[simp] theorem State.issueAfter_img (s : State) (w : Word) (d : Nat) : (s.issueAfter w d).img = s.img := rfl
@[simp] theorem State.issueAfter_pending (s : State) (w : Word) (d : Nat) : (s.issueAfter w d).pending = some w := rfl
@[simp] theorem State.issueAfter_src (s : State) (w : Word) (d : Nat) : (s.issueAfter w d).src = s.src := rfl
@[simp] theorem State.issueAfter_dst (s : State) (w : Word) (d : Nat) : (s.issueAfter w d).dst = s.dst := rfl
@[simp] theorem State.issueAfter_script (s : State) (w : Word) (d : Nat) : (s.issueAfter w d).script = s.script := rfl
@[simp] theorem State.issueAfter_trace (s : State) (w : Word) (d : Nat) : (s.issueAfter w d).trace = s.trace := rfl
@[simp] theorem State.issueAfter_violation (s : State) (w : Word) (d : Nat) : (s.issueAfter w d).violation = s.violation := rfl
@[simp] theorem State.issueAfter_delay (s : State) (w : Word) (d : Nat) : (s.issueAfter w d).delay = d := rfl
@[simp] theorem State.issueAfter_draws (s : State) (w : Word) (d : Nat) : (s.issueAfter w d).draws = s.draws := rfl

/-! `State.issue` -/

@[simp] theorem State.issue_params (s : State) (w : Word) : (s.issue w).params = s.params := rfl
@[simp] theorem State.issue_regs (s : State) (w : Word) : (s.issue w).regs = { s.regs with cmd := w } := rfl
@[simp] theorem State.issue_done (s : State) (w : Word) : (s.issue w).done = false := rfl
@[simp] theorem State.issue_err (s : State) (w : Word) : (s.issue w).err = .ok := rfl
@[simp] theorem State.issue_img (s : State) (w : Word) : (s.issue w).img = s.img := rfl
@[simp] theorem State.issue_pending (s : State) (w : Word) : (s.issue w).pending = some w := rfl
@[simp] theorem State.issue_src (s : State) (w : Word) : (s.issue w).src = s.src := rfl
@[simp] theorem State.issue_dst (s : State) (w : Word) : (s.issue w).dst = s.dst := rfl
@[simp] theorem State.issue_script (s : State) (w : Word) : (s.issue w).script = s.script := rfl
@[simp] theorem State.issue_trace (s : State) (w : Word) : (s.issue w).trace = s.trace := rfl
@[simp] theorem State.issue_violation (s : State) (w : Word) : (s.issue w).violation = s.violation := rfl
@[simp] theorem State.issue_delay (s : State) (w : Word) : (s.issue w).delay = Config.freeDelay s.draws := rfl
@[simp] theorem State.issue_draws (s : State) (w : Word) : (s.issue w).draws = s.draws + 1 := rfl

/-! `State.issueNext` -/

@[simp] theorem State.issueNext_params (s : State) (w : Word) : (s.issueNext w).params = s.params := rfl
@[simp] theorem State.issueNext_regs (s : State) (w : Word) : (s.issueNext w).regs = { s.regs with cmd := w } := rfl
@[simp] theorem State.issueNext_done (s : State) (w : Word) : (s.issueNext w).done = false := rfl
@[simp] theorem State.issueNext_err (s : State) (w : Word) : (s.issueNext w).err = .ok := rfl
@[simp] theorem State.issueNext_img (s : State) (w : Word) : (s.issueNext w).img = s.img := rfl
@[simp] theorem State.issueNext_pending (s : State) (w : Word) : (s.issueNext w).pending = some w := rfl
@[simp] theorem State.issueNext_src (s : State) (w : Word) : (s.issueNext w).src = s.src := rfl
@[simp] theorem State.issueNext_dst (s : State) (w : Word) : (s.issueNext w).dst = s.dst := rfl
@[simp] theorem State.issueNext_script (s : State) (w : Word) : (s.issueNext w).script = s.script := rfl
@[simp] theorem State.issueNext_trace (s : State) (w : Word) : (s.issueNext w).trace = s.trace := rfl
@[simp] theorem State.issueNext_violation (s : State) (w : Word) : (s.issueNext w).violation = false := rfl
@[simp] theorem State.issueNext_delay (s : State) (w : Word) : (s.issueNext w).delay = 0 := rfl
@[simp] theorem State.issueNext_draws (s : State) (w : Word) : (s.issueNext w).draws = s.draws := rfl

/-! `State.violate` -/

@[simp] theorem State.violate_params (s : State) : (s.violate).params = s.params := rfl
@[simp] theorem State.violate_regs (s : State) : (s.violate).regs = s.regs := rfl
@[simp] theorem State.violate_done (s : State) : (s.violate).done = s.done := rfl
@[simp] theorem State.violate_err (s : State) : (s.violate).err = s.err := rfl
@[simp] theorem State.violate_img (s : State) : (s.violate).img = s.img := rfl
@[simp] theorem State.violate_pending (s : State) : (s.violate).pending = s.pending := rfl
@[simp] theorem State.violate_src (s : State) : (s.violate).src = s.src := rfl
@[simp] theorem State.violate_dst (s : State) : (s.violate).dst = s.dst := rfl
@[simp] theorem State.violate_script (s : State) : (s.violate).script = s.script := rfl
@[simp] theorem State.violate_trace (s : State) : (s.violate).trace = s.trace := rfl
@[simp] theorem State.violate_violation (s : State) : (s.violate).violation = true := rfl
@[simp] theorem State.violate_delay (s : State) : (s.violate).delay = s.delay := rfl
@[simp] theorem State.violate_draws (s : State) : (s.violate).draws = s.draws := rfl

/-! `State.record` -/

@[simp] theorem State.record_params (s : State) (e : TraceEntry) : (s.record e).params = s.params := rfl
@[simp] theorem State.record_regs (s : State) (e : TraceEntry) : (s.record e).regs = s.regs := rfl
@[simp] theorem State.record_done (s : State) (e : TraceEntry) : (s.record e).done = s.done := rfl
@[simp] theorem State.record_err (s : State) (e : TraceEntry) : (s.record e).err = s.err := rfl
@[simp] theorem State.record_img (s : State) (e : TraceEntry) : (s.record e).img = s.img := rfl
@[simp] theorem State.record_pending (s : State) (e : TraceEntry) : (s.record e).pending = s.pending := rfl
@[simp] theorem State.record_src (s : State) (e : TraceEntry) : (s.record e).src = s.src := rfl
@[simp] theorem State.record_dst (s : State) (e : TraceEntry) : (s.record e).dst = s.dst := rfl
@[simp] theorem State.record_script (s : State) (e : TraceEntry) : (s.record e).script = s.script := rfl
@[simp] theorem State.record_trace (s : State) (e : TraceEntry) : (s.record e).trace = s.trace ++ [e] := rfl
@[simp] theorem State.record_violation (s : State) (e : TraceEntry) : (s.record e).violation = s.violation := rfl
@[simp] theorem State.record_delay (s : State) (e : TraceEntry) : (s.record e).delay = s.delay := rfl
@[simp] theorem State.record_draws (s : State) (e : TraceEntry) : (s.record e).draws = s.draws := rfl

/-! `State.draw` -/

@[simp] theorem State.draw_params (s : State) (n : Nat) : (s.draw n).params = s.params := rfl
@[simp] theorem State.draw_regs (s : State) (n : Nat) : (s.draw n).regs = s.regs := rfl
@[simp] theorem State.draw_done (s : State) (n : Nat) : (s.draw n).done = s.done := rfl
@[simp] theorem State.draw_err (s : State) (n : Nat) : (s.draw n).err = s.err := rfl
@[simp] theorem State.draw_img (s : State) (n : Nat) : (s.draw n).img = s.img := rfl
@[simp] theorem State.draw_pending (s : State) (n : Nat) : (s.draw n).pending = s.pending := rfl
@[simp] theorem State.draw_src (s : State) (n : Nat) : (s.draw n).src = s.src := rfl
@[simp] theorem State.draw_dst (s : State) (n : Nat) : (s.draw n).dst = s.dst := rfl
@[simp] theorem State.draw_script (s : State) (n : Nat) : (s.draw n).script = s.script := rfl
@[simp] theorem State.draw_trace (s : State) (n : Nat) : (s.draw n).trace = s.trace := rfl
@[simp] theorem State.draw_violation (s : State) (n : Nat) : (s.draw n).violation = s.violation := rfl
@[simp] theorem State.draw_delay (s : State) (n : Nat) : (s.draw n).delay = s.delay := rfl
@[simp] theorem State.draw_draws (s : State) (n : Nat) : (s.draw n).draws = s.draws + n := rfl

/-! `State.advance` -/

@[simp] theorem State.advance_params (s : State) (rest : List HostAct) : (s.advance rest).params = s.params := rfl
@[simp] theorem State.advance_regs (s : State) (rest : List HostAct) : (s.advance rest).regs = s.regs := rfl
@[simp] theorem State.advance_done (s : State) (rest : List HostAct) : (s.advance rest).done = s.done := rfl
@[simp] theorem State.advance_err (s : State) (rest : List HostAct) : (s.advance rest).err = s.err := rfl
@[simp] theorem State.advance_img (s : State) (rest : List HostAct) : (s.advance rest).img = s.img := rfl
@[simp] theorem State.advance_pending (s : State) (rest : List HostAct) : (s.advance rest).pending = s.pending := rfl
@[simp] theorem State.advance_src (s : State) (rest : List HostAct) : (s.advance rest).src = s.src := rfl
@[simp] theorem State.advance_dst (s : State) (rest : List HostAct) : (s.advance rest).dst = s.dst := rfl
@[simp] theorem State.advance_script (s : State) (rest : List HostAct) : (s.advance rest).script = rest := rfl
@[simp] theorem State.advance_trace (s : State) (rest : List HostAct) : (s.advance rest).trace = s.trace := rfl
@[simp] theorem State.advance_violation (s : State) (rest : List HostAct) : (s.advance rest).violation = s.violation := rfl
@[simp] theorem State.advance_delay (s : State) (rest : List HostAct) : (s.advance rest).delay = s.delay - 1 := rfl
@[simp] theorem State.advance_draws (s : State) (rest : List HostAct) : (s.advance rest).draws = s.draws := rfl

/-! `State.resetBlock` -/

@[simp] theorem State.resetBlock_params (s : State) : (s.resetBlock).params = s.params := rfl
@[simp] theorem State.resetBlock_regs (s : State) : (s.resetBlock).regs = Regs.reset := rfl
@[simp] theorem State.resetBlock_done (s : State) : (s.resetBlock).done = false := rfl
@[simp] theorem State.resetBlock_err (s : State) : (s.resetBlock).err = .ok := rfl
@[simp] theorem State.resetBlock_img (s : State) : (s.resetBlock).img = ImageStore.empty := rfl
@[simp] theorem State.resetBlock_pending (s : State) : (s.resetBlock).pending = none := rfl
@[simp] theorem State.resetBlock_src (s : State) : (s.resetBlock).src = s.src := rfl
@[simp] theorem State.resetBlock_dst (s : State) : (s.resetBlock).dst = memStoreAll s.dst 0 (freeBytes s.draws (abandonedBytes s)) := rfl
@[simp] theorem State.resetBlock_script (s : State) : (s.resetBlock).script = s.script := rfl
@[simp] theorem State.resetBlock_trace (s : State) : (s.resetBlock).trace = s.trace := rfl
@[simp] theorem State.resetBlock_violation (s : State) : (s.resetBlock).violation = s.violation := rfl
@[simp] theorem State.resetBlock_delay (s : State) : (s.resetBlock).delay = 0 := rfl
@[simp] theorem State.resetBlock_draws (s : State) : (s.resetBlock).draws = s.draws + abandonedBytes s := rfl

/-! `State.withFetchWord` -/

@[simp] theorem State.withFetchWord_params (s : State) (n w : Nat) : (s.withFetchWord n w).params = s.params := rfl
@[simp] theorem State.withFetchWord_regs (s : State) (n w : Nat) : (s.withFetchWord n w).regs = { s.regs with cmd := BitVec.ofNat 32 (w % 2 ^ n) } := rfl
@[simp] theorem State.withFetchWord_done (s : State) (n w : Nat) : (s.withFetchWord n w).done = false := rfl
@[simp] theorem State.withFetchWord_err (s : State) (n w : Nat) : (s.withFetchWord n w).err = .ok := rfl
@[simp] theorem State.withFetchWord_img (s : State) (n w : Nat) : (s.withFetchWord n w).img = s.img := rfl
@[simp] theorem State.withFetchWord_pending (s : State) (n w : Nat) : (s.withFetchWord n w).pending = some (BitVec.ofNat 32 (w % 2 ^ n)) := rfl
@[simp] theorem State.withFetchWord_src (s : State) (n w : Nat) : (s.withFetchWord n w).src = s.src := rfl
@[simp] theorem State.withFetchWord_dst (s : State) (n w : Nat) : (s.withFetchWord n w).dst = s.dst := rfl
@[simp] theorem State.withFetchWord_script (s : State) (n w : Nat) : (s.withFetchWord n w).script = s.script := rfl
@[simp] theorem State.withFetchWord_trace (s : State) (n w : Nat) : (s.withFetchWord n w).trace = s.trace := rfl
@[simp] theorem State.withFetchWord_violation (s : State) (n w : Nat) : (s.withFetchWord n w).violation = false := rfl
@[simp] theorem State.withFetchWord_delay (s : State) (n w : Nat) : (s.withFetchWord n w).delay = 0 := rfl
@[simp] theorem State.withFetchWord_draws (s : State) (n w : Nat) : (s.withFetchWord n w).draws = s.draws := rfl

/-! `Regs.setErrReq` -/

@[simp] theorem Regs.setErrReq_cmd (r : Regs) (q : DWord) (a : Word) : (r.setErrReq q a).cmd = r.cmd := rfl
@[simp] theorem Regs.setErrReq_width (r : Regs) (q : DWord) (a : Word) : (r.setErrReq q a).width = r.width := rfl
@[simp] theorem Regs.setErrReq_height (r : Regs) (q : DWord) (a : Word) : (r.setErrReq q a).height = r.height := rfl
@[simp] theorem Regs.setErrReq_srcLen (r : Regs) (q : DWord) (a : Word) : (r.setErrReq q a).srcLen = r.srcLen := rfl
@[simp] theorem Regs.setErrReq_dstLen (r : Regs) (q : DWord) (a : Word) : (r.setErrReq q a).dstLen = r.dstLen := rfl
@[simp] theorem Regs.setErrReq_arg0 (r : Regs) (q : DWord) (a : Word) : (r.setErrReq q a).arg0 = r.arg0 := rfl
@[simp] theorem Regs.setErrReq_res (r : Regs) (q : DWord) (a : Word) : (r.setErrReq q a).res = r.res := rfl
@[simp] theorem Regs.setErrReq_blkCol (r : Regs) (q : DWord) (a : Word) : (r.setErrReq q a).blkCol = r.blkCol := rfl
@[simp] theorem Regs.setErrReq_blkIdx (r : Regs) (q : DWord) (a : Word) : (r.setErrReq q a).blkIdx = r.blkIdx := rfl
@[simp] theorem Regs.setErrReq_blkAlphaLo (r : Regs) (q : DWord) (a : Word) : (r.setErrReq q a).blkAlphaLo = r.blkAlphaLo := rfl
@[simp] theorem Regs.setErrReq_blkAlphaHi (r : Regs) (q : DWord) (a : Word) : (r.setErrReq q a).blkAlphaHi = r.blkAlphaHi := rfl
@[simp] theorem Regs.setErrReq_errPixLo (r : Regs) (q : DWord) (a : Word) : (r.setErrReq q a).errPixLo = r.errPixLo := rfl
@[simp] theorem Regs.setErrReq_errPixHi (r : Regs) (q : DWord) (a : Word) : (r.setErrReq q a).errPixHi = r.errPixHi := rfl
@[simp] theorem Regs.setErrReq_errReqLo (r : Regs) (q : DWord) (a : Word) : (r.setErrReq q a).errReqLo = lowWord q := rfl
@[simp] theorem Regs.setErrReq_errReqHi (r : Regs) (q : DWord) (a : Word) : (r.setErrReq q a).errReqHi = highWord q := rfl
@[simp] theorem Regs.setErrReq_errAvail (r : Regs) (q : DWord) (a : Word) : (r.setErrReq q a).errAvail = a := rfl
@[simp] theorem Regs.setErrReq_outLen (r : Regs) (q : DWord) (a : Word) : (r.setErrReq q a).outLen = r.outLen := rfl
@[simp] theorem Regs.setErrReq_tile (r : Regs) (q : DWord) (a : Word) : (r.setErrReq q a).tile = r.tile := rfl

/-! `Regs.setErrPix` -/

@[simp] theorem Regs.setErrPix_cmd (r : Regs) (q : DWord) : (r.setErrPix q).cmd = r.cmd := rfl
@[simp] theorem Regs.setErrPix_width (r : Regs) (q : DWord) : (r.setErrPix q).width = r.width := rfl
@[simp] theorem Regs.setErrPix_height (r : Regs) (q : DWord) : (r.setErrPix q).height = r.height := rfl
@[simp] theorem Regs.setErrPix_srcLen (r : Regs) (q : DWord) : (r.setErrPix q).srcLen = r.srcLen := rfl
@[simp] theorem Regs.setErrPix_dstLen (r : Regs) (q : DWord) : (r.setErrPix q).dstLen = r.dstLen := rfl
@[simp] theorem Regs.setErrPix_arg0 (r : Regs) (q : DWord) : (r.setErrPix q).arg0 = r.arg0 := rfl
@[simp] theorem Regs.setErrPix_res (r : Regs) (q : DWord) : (r.setErrPix q).res = r.res := rfl
@[simp] theorem Regs.setErrPix_blkCol (r : Regs) (q : DWord) : (r.setErrPix q).blkCol = r.blkCol := rfl
@[simp] theorem Regs.setErrPix_blkIdx (r : Regs) (q : DWord) : (r.setErrPix q).blkIdx = r.blkIdx := rfl
@[simp] theorem Regs.setErrPix_blkAlphaLo (r : Regs) (q : DWord) : (r.setErrPix q).blkAlphaLo = r.blkAlphaLo := rfl
@[simp] theorem Regs.setErrPix_blkAlphaHi (r : Regs) (q : DWord) : (r.setErrPix q).blkAlphaHi = r.blkAlphaHi := rfl
@[simp] theorem Regs.setErrPix_errPixLo (r : Regs) (q : DWord) : (r.setErrPix q).errPixLo = lowWord q := rfl
@[simp] theorem Regs.setErrPix_errPixHi (r : Regs) (q : DWord) : (r.setErrPix q).errPixHi = highWord q := rfl
@[simp] theorem Regs.setErrPix_errReqLo (r : Regs) (q : DWord) : (r.setErrPix q).errReqLo = r.errReqLo := rfl
@[simp] theorem Regs.setErrPix_errReqHi (r : Regs) (q : DWord) : (r.setErrPix q).errReqHi = r.errReqHi := rfl
@[simp] theorem Regs.setErrPix_errAvail (r : Regs) (q : DWord) : (r.setErrPix q).errAvail = r.errAvail := rfl
@[simp] theorem Regs.setErrPix_outLen (r : Regs) (q : DWord) : (r.setErrPix q).outLen = r.outLen := rfl
@[simp] theorem Regs.setErrPix_tile (r : Regs) (q : DWord) : (r.setErrPix q).tile = r.tile := rfl

/-! `Regs.setRecord` -/

@[simp] theorem Regs.setRecord_cmd (r : Regs) (b : BlockRecord) : (r.setRecord b).cmd = r.cmd := rfl
@[simp] theorem Regs.setRecord_width (r : Regs) (b : BlockRecord) : (r.setRecord b).width = r.width := rfl
@[simp] theorem Regs.setRecord_height (r : Regs) (b : BlockRecord) : (r.setRecord b).height = r.height := rfl
@[simp] theorem Regs.setRecord_srcLen (r : Regs) (b : BlockRecord) : (r.setRecord b).srcLen = r.srcLen := rfl
@[simp] theorem Regs.setRecord_dstLen (r : Regs) (b : BlockRecord) : (r.setRecord b).dstLen = r.dstLen := rfl
@[simp] theorem Regs.setRecord_arg0 (r : Regs) (b : BlockRecord) : (r.setRecord b).arg0 = r.arg0 := rfl
@[simp] theorem Regs.setRecord_res (r : Regs) (b : BlockRecord) : (r.setRecord b).res = r.res := rfl
@[simp] theorem Regs.setRecord_blkCol (r : Regs) (b : BlockRecord) : (r.setRecord b).blkCol = b.colour2 ++ b.colour1 := rfl
@[simp] theorem Regs.setRecord_blkIdx (r : Regs) (b : BlockRecord) : (r.setRecord b).blkIdx = b.indices := rfl
@[simp] theorem Regs.setRecord_blkAlphaLo (r : Regs) (b : BlockRecord) : (r.setRecord b).blkAlphaLo = lowWord b.alpha := rfl
@[simp] theorem Regs.setRecord_blkAlphaHi (r : Regs) (b : BlockRecord) : (r.setRecord b).blkAlphaHi = highWord b.alpha := rfl
@[simp] theorem Regs.setRecord_errPixLo (r : Regs) (b : BlockRecord) : (r.setRecord b).errPixLo = r.errPixLo := rfl
@[simp] theorem Regs.setRecord_errPixHi (r : Regs) (b : BlockRecord) : (r.setRecord b).errPixHi = r.errPixHi := rfl
@[simp] theorem Regs.setRecord_errReqLo (r : Regs) (b : BlockRecord) : (r.setRecord b).errReqLo = r.errReqLo := rfl
@[simp] theorem Regs.setRecord_errReqHi (r : Regs) (b : BlockRecord) : (r.setRecord b).errReqHi = r.errReqHi := rfl
@[simp] theorem Regs.setRecord_errAvail (r : Regs) (b : BlockRecord) : (r.setRecord b).errAvail = r.errAvail := rfl
@[simp] theorem Regs.setRecord_outLen (r : Regs) (b : BlockRecord) : (r.setRecord b).outLen = r.outLen := rfl
@[simp] theorem Regs.setRecord_tile (r : Regs) (b : BlockRecord) : (r.setRecord b).tile = r.tile := rfl

/-! `decodeInfo` -/

@[simp] theorem decodeInfo_cmd (v : Variant) (r : Regs) : (decodeInfo v r).cmd = r.cmd := rfl
@[simp] theorem decodeInfo_width (v : Variant) (r : Regs) : (decodeInfo v r).width = r.width := rfl
@[simp] theorem decodeInfo_height (v : Variant) (r : Regs) : (decodeInfo v r).height = r.height := rfl
@[simp] theorem decodeInfo_srcLen (v : Variant) (r : Regs) : (decodeInfo v r).srcLen = r.srcLen := rfl
@[simp] theorem decodeInfo_dstLen (v : Variant) (r : Regs) : (decodeInfo v r).dstLen = r.dstLen := rfl
@[simp] theorem decodeInfo_arg0 (v : Variant) (r : Regs) : (decodeInfo v r).arg0 = r.arg0 := rfl
@[simp] theorem decodeInfo_res (v : Variant) (r : Regs) : (decodeInfo v r).res = r.res := rfl
@[simp] theorem decodeInfo_blkCol (v : Variant) (r : Regs) : (decodeInfo v r).blkCol = r.blkCol := rfl
@[simp] theorem decodeInfo_blkIdx (v : Variant) (r : Regs) : (decodeInfo v r).blkIdx = r.blkIdx := rfl
@[simp] theorem decodeInfo_blkAlphaLo (v : Variant) (r : Regs) : (decodeInfo v r).blkAlphaLo = r.blkAlphaLo := rfl
@[simp] theorem decodeInfo_blkAlphaHi (v : Variant) (r : Regs) : (decodeInfo v r).blkAlphaHi = r.blkAlphaHi := rfl
@[simp] theorem decodeInfo_errPixLo (v : Variant) (r : Regs) : (decodeInfo v r).errPixLo = lowWord (BitVec.ofNat 64 (r.width.toNat * r.height.toNat)) := rfl
@[simp] theorem decodeInfo_errPixHi (v : Variant) (r : Regs) : (decodeInfo v r).errPixHi = highWord (BitVec.ofNat 64 (r.width.toNat * r.height.toNat)) := rfl
@[simp] theorem decodeInfo_errReqLo (v : Variant) (r : Regs) : (decodeInfo v r).errReqLo = lowWord (saturate64 (requiredBytes v r.width.toNat r.height.toNat)) := rfl
@[simp] theorem decodeInfo_errReqHi (v : Variant) (r : Regs) : (decodeInfo v r).errReqHi = highWord (saturate64 (requiredBytes v r.width.toNat r.height.toNat)) := rfl
@[simp] theorem decodeInfo_errAvail (v : Variant) (r : Regs) : (decodeInfo v r).errAvail = r.srcLen := rfl
@[simp] theorem decodeInfo_outLen (v : Variant) (r : Regs) : (decodeInfo v r).outLen = r.outLen := rfl
@[simp] theorem decodeInfo_tile (v : Variant) (r : Regs) : (decodeInfo v r).tile = r.tile := rfl

/-! `State.busy` -/

@[simp] theorem State.busy_none (s : State) (h : s.pending = none) : s.busy = false := by simp [State.busy, h]

@[simp] theorem State.busy_some (s : State) (w : Word) (h : s.pending = some w) : s.busy = true := by
  simp [State.busy, h]

end Sys2Proof.Machine
end

