-- ==== Sys2Proof/Laws/Ops.lean ====
section
/-! SUPPORT. What each shared operation can do, said once: the cases of every meaning, of a host action and of a step. -/

namespace Sys2Proof.Machine

/-- PARSEBLK either finds too few bytes or writes the block record registers (spec/42_block_parser.md R144, R145). -/
theorem parseBlk_cases (v : Variant) (s : State) :
    (availFrom (offsetOperand s) s.regs.srcLen.toNat < blockSize v ∧
      parseBlk v s = s.raise .invalidData (s.regs.setErrReq (BitVec.ofNat 64 (blockSize v))
        (BitVec.ofNat 32 (availFrom (offsetOperand s) s.regs.srcLen.toNat)))) ∨
    (blockSize v ≤ availFrom (offsetOperand s) s.regs.srcLen.toNat ∧
      parseBlk v s = ({ s with regs := s.regs.setRecord (parseBlock v s.src (offsetOperand s)) }).complete .ok) := by
  by_cases h : availFrom (offsetOperand s) s.regs.srcLen.toNat < blockSize v
  · exact .inl ⟨h, by rw [parseBlk, if_pos h]⟩
  · exact .inr ⟨by omega, by rw [parseBlk, if_neg h]⟩

/-- Enough bytes remain exactly when the whole block lies below `SRC_LEN`. -/
theorem blockSize_le_availFrom {v : Variant} {o n : Nat} : blockSize v ≤ availFrom o n ↔ o + blockSize v ≤ n := by
  have : 0 < blockSize v := by cases v <;> decide
  unfold availFrom
  split <;> omega

/-- DECODE ends in one of four ways, checked in this order (spec/45_decode.md R221, spec/60_exceptions.md R254). -/
theorem decodeImage_cases (v : Variant) (s : State) :
    ((s.regs.width = 0 ∧ s.regs.height = 0) ∧
      decodeImage v s = ({ s with img := ImageStore.empty }).complete .invalidInput) ∨
    (¬(s.regs.width = 0 ∧ s.regs.height = 0) ∧
      s.regs.srcLen.toNat < requiredBytes v s.regs.width.toNat s.regs.height.toNat ∧
      decodeImage v s = ({ s with img := ImageStore.empty }).raise .invalidData (decodeInfo v s.regs)) ∨
    (¬(s.regs.width = 0 ∧ s.regs.height = 0) ∧
      requiredBytes v s.regs.width.toNat s.regs.height.toNat ≤ s.regs.srcLen.toNat ∧
      overCapacity s.params (blockCount s.regs.width.toNat s.regs.height.toNat) = true ∧
      decodeImage v s = ({ s with img := ImageStore.empty }).raise .capacity (decodeInfo v s.regs)) ∨
    (¬(s.regs.width = 0 ∧ s.regs.height = 0) ∧
      requiredBytes v s.regs.width.toNat s.regs.height.toNat ≤ s.regs.srcLen.toNat ∧
      overCapacity s.params (blockCount s.regs.width.toNat s.regs.height.toNat) = false ∧
      decodeImage v s = ({ s with img := decodedImage v s, regs := decodeInfo v s.regs }).complete .ok) := by
  by_cases h0 : s.regs.width = 0 ∧ s.regs.height = 0
  · exact .inl ⟨h0, by simp only [decodeImage, if_pos h0]⟩
  · by_cases h1 : s.regs.srcLen.toNat < requiredBytes v s.regs.width.toNat s.regs.height.toNat
    · exact .inr (.inl ⟨h0, h1, by simp only [decodeImage, if_neg h0, if_pos h1]⟩)
    · by_cases h2 : overCapacity s.params (blockCount s.regs.width.toNat s.regs.height.toNat) = true
      · exact .inr (.inr (.inl ⟨h0, by omega, h2, by simp only [decodeImage, if_neg h0, if_neg h1, if_pos h2]⟩))
      · exact .inr (.inr (.inr ⟨h0, by omega, by simpa using h2,
          by simp only [decodeImage, if_neg h0, if_neg h1, if_neg h2]⟩))

/-- ASSEMBLE ends in one of three ways, checked in this order (spec/44_image_assembler.md R194, R196). -/
theorem assemble_cases (ch : Channels) (s : State) :
    (s.img.valid = false ∧ assemble ch s = s.raise .noImage { s.regs with outLen := 0 }) ∨
    (s.img.valid = true ∧ s.regs.dstLen.toNat < outLen s.params s.img ch ∧
      assemble ch s = s.raise .dstTooSmall
        ({ s.regs with outLen := 0 }.setErrReq (saturate64 (outLen s.params s.img ch)) s.regs.dstLen)) ∨
    (s.img.valid = true ∧ outLen s.params s.img ch ≤ s.regs.dstLen.toNat ∧
      assemble ch s = ({ s with
        dst  := memStoreAll s.dst 0 (imageBytes s.params s.img ch)
        regs := { s.regs with outLen := BitVec.ofNat 32 (outLen s.params s.img ch) } }).complete .ok) := by
  by_cases h0 : s.img.valid = false
  · exact .inl ⟨h0, by rw [assemble, if_pos h0]⟩
  · have hv : s.img.valid = true := by simpa using h0
    by_cases h1 : s.regs.dstLen.toNat < outLen s.params s.img ch
    · exact .inr (.inl ⟨hv, h1, by rw [assemble, if_neg h0, if_pos h1]⟩)
    · exact .inr (.inr ⟨hv, by omega, by rw [assemble, if_neg h0, if_neg h1]⟩)

/-- A host register read: a violation, a free value, or the register's value. -/
theorem hostRegRead_cases (bits off : Nat) (s : State) :
    (legalReg bits off = none ∧ hostRegRead bits off s = .next s.violate) ∨
    (∃ r, legalReg bits off = some r ∧ s.busy = true ∧ knownWhileBusy r = false ∧
      hostRegRead bits off s = .next ((s.draw 1).record (.reg off (Config.freeWord s.draws)))) ∨
    (∃ r, legalReg bits off = some r ∧ (s.busy = false ∨ knownWhileBusy r = true) ∧
      hostRegRead bits off s = .next (s.record (.reg off (readReg s r)))) := by
  unfold hostRegRead
  cases h : legalReg bits off with
  | none => exact .inl ⟨rfl, rfl⟩
  | some r =>
    by_cases hb : (s.busy && !knownWhileBusy r) = true
    · simp only [Bool.and_eq_true, Bool.not_eq_true'] at hb
      exact .inr (.inl ⟨r, rfl, hb.1, hb.2, by simp [hb.1, hb.2]⟩)
    · refine .inr (.inr ⟨r, rfl, ?_, by simp only [if_neg hb]⟩)
      cases h1 : s.busy <;> cases h2 : knownWhileBusy r <;> simp_all

/-- A host register write: a violation, or the register's new value. -/
theorem hostRegWrite_cases (bits off : Nat) (v : Word) (s : State) :
    ((legalReg bits off = none ∨ (∃ r, legalReg bits off = some r ∧ regAccess r = .ro) ∨ s.busy = true) ∧
      hostRegWrite bits off v s = .next s.violate) ∨
    (∃ r, legalReg bits off = some r ∧ regAccess r = .rw ∧ s.busy = false ∧
      hostRegWrite bits off v s = .next (writeReg s r v)) := by
  unfold hostRegWrite
  cases h : legalReg bits off with
  | none => exact .inl ⟨.inl rfl, rfl⟩
  | some r =>
    by_cases hb : regAccess r = .ro ∨ s.busy = true
    · exact .inl ⟨.inr (hb.imp (fun h => ⟨r, rfl, h⟩) id), by simp only [if_pos hb]⟩
    · refine .inr ⟨r, rfl, ?_, ?_, by simp only [if_neg hb]⟩
      · cases hr : regAccess r <;> simp_all
      · cases hr : s.busy <;> simp_all

/-- A register the host may write, other than `CMD`, changes in `State.regs` alone. -/
theorem writeReg_eq_regs {s : State} {r : RegName} (v : Word) (h : r ≠ .cmd) :
    writeReg s r v = { s with regs := (writeReg s r v).regs } := by
  cases r <;> first | rfl | exact absurd rfl h

/-- The completion of a word: its command, or IllegalCommand (spec/30_encoding.md R96). -/
theorem engineStep_cases (w : Word) (s : State) :
    (∃ i, decode w = .ok i ∧ engineStep w s = exec i s) ∨
    (∃ e, decode w = .error e ∧ engineStep w s = .next (s.complete .illegalCommand)) := by
  unfold engineStep
  cases h : decode w with
  | ok i => exact .inl ⟨i, rfl, rfl⟩
  | error e => exact .inr ⟨e, rfl, rfl⟩

/-- The engine's turn, spelled out. -/
theorem engineTurn_iff (s : State) :
    engineTurn s = true ↔ s.pending ≠ none ∧ (s.delay = 0 ∨ s.script = []) := by
  simp [engineTurn, State.busy, Option.isSome_iff_ne_none]

/-- A host step does the next action, or idles. -/
theorem hostStep_cases (s : State) :
    (∃ a rest, s.script = a :: rest ∧ hostStep s = hostAct a (s.advance rest)) ∨
    (s.script = [] ∧ hostStep s = .next s) := by
  unfold hostStep
  cases hs : s.script with
  | nil => exact .inr ⟨rfl, rfl⟩
  | cons a rest => exact .inl ⟨a, rest, rfl, rfl⟩

/-- Without a violation the engine completes in its turn, and else the host moves. -/
theorem step_clean {s : State} (hv : s.violation = false) :
    (∃ w, s.pending = some w ∧ engineTurn s = true ∧ step s = engineStep w s) ∨
    (engineTurn s = false ∧ step s = hostStep s) := by
  unfold step machineStep cleanStep
  rw [hv, if_neg (by simp)]
  cases hp : s.pending with
  | none => exact .inr ⟨by simp [engineTurn, State.busy, hp], rfl⟩
  | some w =>
    by_cases ht : engineTurn s = true
    · exact .inl ⟨w, rfl, ht, by simp only [if_pos ht]⟩
    · exact .inr ⟨by simpa using ht, by simp only [if_neg ht]⟩

/-- After a violation the host may reset, and else the run has its fault. -/
theorem step_marked {s : State} (hv : s.violation = true) :
    (∃ rest, s.script = .reset :: rest ∧ step s = .next (s.advance rest).resetBlock) ∨
    ((∀ rest, s.script ≠ .reset :: rest) ∧ step s = .fault .hostViolation) := by
  unfold step machineStep markedStep
  rw [hv, if_pos rfl]
  split
  · rename_i rest hs
    exact .inl ⟨rest, hs, rfl⟩
  · rename_i hn
    exact .inr ⟨hn, rfl⟩

/-- A step is the fault after a violation, a reset after one, the engine's completion, a host action, or idle. -/
theorem step_cases (s : State) :
    (s.violation = true ∧ (∀ rest, s.script ≠ .reset :: rest) ∧ step s = .fault .hostViolation) ∨
    (∃ rest, s.violation = true ∧ s.script = .reset :: rest ∧ step s = .next (s.advance rest).resetBlock) ∨
    (∃ w, s.violation = false ∧ s.pending = some w ∧ engineTurn s = true ∧ step s = engineStep w s) ∨
    (∃ a rest, s.violation = false ∧ engineTurn s = false ∧ s.script = a :: rest ∧
      step s = hostAct a (s.advance rest)) ∨
    (s.violation = false ∧ engineTurn s = false ∧ s.script = [] ∧ step s = .next s) := by
  cases hv : s.violation with
  | true =>
    rcases step_marked hv with ⟨rest, hs, h⟩ | ⟨hs, h⟩
    · exact .inr (.inl ⟨rest, rfl, hs, h⟩)
    · exact .inl ⟨rfl, hs, h⟩
  | false =>
    rcases step_clean hv with ⟨w, hp, ht, h⟩ | ⟨ht, h⟩
    · exact .inr (.inr (.inl ⟨w, rfl, hp, ht, h⟩))
    · rcases hostStep_cases s with ⟨a, rest, hs, h'⟩ | ⟨hs, h'⟩
      · exact .inr (.inr (.inr (.inl ⟨a, rest, rfl, ht, hs, h.trans h'⟩)))
      · exact .inr (.inr (.inr (.inr ⟨rfl, ht, hs, h.trans h'⟩)))

/-- In the engine's turn a step completes the pending word. -/
theorem step_engine {s : State} {w : Word} (hv : s.violation = false) (hp : s.pending = some w)
    (ht : s.delay = 0 ∨ s.script = []) : step s = engineStep w s := by
  rcases step_clean hv with ⟨w', hp', _, h⟩ | ⟨h, _⟩
  · cases hp.symm.trans hp'
    exact h
  · exact absurd ((engineTurn_iff s).mpr ⟨by simp [hp], ht⟩) (by simp [h])

/-- In the host's turn a step does the host's next action. -/
theorem step_host {s : State} {a : HostAct} {rest : List HostAct} (hv : s.violation = false) (hs : s.script = a :: rest)
    (ht : s.pending = none ∨ s.delay ≠ 0) : step s = hostAct a (s.advance rest) := by
  rcases step_clean hv with ⟨w, _, htt, _⟩ | ⟨_, h⟩
  · obtain ⟨hp, hd⟩ := (engineTurn_iff s).mp htt
    simp_all
  · rw [h, hostStep, hs]

end Sys2Proof.Machine
end

