-- ==== Sys2Proof/Laws/PerInstr.lean ====
section
/-! SUPPORT. A fact about every command as syntax, one lemma per constructor: the fields its word is made of are those of
a command (spec/30_encoding.md R91 to R94, R96). -/

namespace Sys2Proof.Laws

/-- The word of a command has the fields of the opcode map, and none of the three cases of spec/30_encoding.md R96. -/
def EncodedFields.Statement (i : Instr) : Prop :=
  fieldsOf (encode i) = encodeFields i ∧ (fieldsOf (encode i)).wf = true

theorem EncodedFields.cvt565 : EncodedFields.Statement .cvt565 := by unfold EncodedFields.Statement; decide
theorem EncodedFields.parseblkDxt1 : EncodedFields.Statement .parseblkDxt1 := by unfold EncodedFields.Statement; decide
theorem EncodedFields.parseblkDxt3 : EncodedFields.Statement .parseblkDxt3 := by unfold EncodedFields.Statement; decide
theorem EncodedFields.recon : EncodedFields.Statement .recon := by unfold EncodedFields.Statement; decide
theorem EncodedFields.decodeDxt1 : EncodedFields.Statement .decodeDxt1 := by unfold EncodedFields.Statement; decide
theorem EncodedFields.decodeDxt3 : EncodedFields.Statement .decodeDxt3 := by unfold EncodedFields.Statement; decide
theorem EncodedFields.assembleRgb : EncodedFields.Statement .assembleRgb := by unfold EncodedFields.Statement; decide
theorem EncodedFields.assembleRgba : EncodedFields.Statement .assembleRgba := by unfold EncodedFields.Statement; decide

end Sys2Proof.Laws
end

