-- ==== Sys2Proof/Laws/Safety.lean ====
section
/-! SUPPORT. How the invariant is kept: by a completion, by an issue, and by what does not touch its fields. -/

namespace Sys2Proof.Machine

/-- A completion keeps the invariant whatever the code, once the byte spaces and the store have their form. -/
theorem inv_complete {s : State} (c : ErrCode) (hsrc : memWf s.src = true) (hdst : memWf s.dst = true)
    (himg : storeWf s.img = true) (hcap : capacityWf s.params s.img = true) : (s.complete c).Inv :=
  ⟨hsrc, hdst, himg, hcap, rfl⟩

/-- An issue keeps the invariant. -/
theorem inv_issue {s : State} (w : Word) (h : s.Inv) : (s.issue w).Inv :=
  ⟨h.1, h.2.1, h.2.2.1, h.2.2.2.1, by simp [statusWf]⟩

/-- A state that differs in no field the invariant speaks of has it too. -/
theorem inv_congr {s t : State} (h : s.Inv) (h1 : t.src = s.src) (h2 : t.dst = s.dst) (h3 : t.img = s.img)
    (h4 : t.params = s.params) (h5 : t.pending = s.pending) (h6 : t.regs.cmd = s.regs.cmd) (h7 : t.done = s.done)
    (h8 : t.err = s.err) : t.Inv := by
  obtain ⟨i1, i2, i3, i4, i5⟩ := h
  refine ⟨by rw [h1]; exact i1, by rw [h2]; exact i2, by rw [h3]; exact i3, by rw [h3, h4]; exact i4, ?_⟩
  unfold statusWf at i5 ⊢
  rw [h5, h6, h7, h8]
  exact i5

/-- The empty store is well-formed. -/
theorem storeWf_empty : storeWf ImageStore.empty = true := by decide

/-- The empty store is within every capacity. -/
theorem capacityWf_empty (p : Params) : capacityWf p ImageStore.empty = true := by
  unfold capacityWf overCapacity
  split <;> rfl

/-- A stored image has one record per tile (spec/45_decode.md R227). -/
theorem length_blocks_of_storeWf {img : ImageStore} (h : storeWf img = true) (hv : img.valid = true) :
    img.blocks.length = blockCount img.width.toNat img.height.toNat := by
  simp only [storeWf, hv, if_true, Bool.and_eq_true, decide_eq_true_eq] at h
  exact h.1.1.1

end Sys2Proof.Machine
end

