-- ==== Sys2Proof/Laws/Values.lean ====
section
/-! SUPPORT. The values of the packed words, register halves and 64-bit counts as numbers, and what the parser reads. -/

namespace Sys2Proof.Machine

/-- The bytes of `pack32`, from the least significant (spec/00_scope.md R10). -/
theorem pack32_toNat (c : Rgba) :
    (pack32 c).toNat = c.r.toNat + 2 ^ 8 * c.g.toNat + 2 ^ 16 * c.b.toNat + 2 ^ 24 * c.a.toNat := by
  have hr := c.r.isLt
  have hg := c.g.isLt
  have hb := c.b.isLt
  unfold pack32
  rw [BitVec.toNat_append, BitVec.toNat_append, BitVec.toNat_append, ← Nat.shiftLeft_add_eq_or_of_lt (by omega),
    ← Nat.shiftLeft_add_eq_or_of_lt (by omega), ← Nat.shiftLeft_add_eq_or_of_lt (by omega)]
  simp only [Nat.shiftLeft_eq]
  omega

theorem lowHalf_toNat (w : Word) : (lowHalf w).toNat = w.toNat % 65536 := by
  simp [lowHalf, BitVec.extractLsb'_toNat]

theorem highHalf_toNat (w : Word) : (highHalf w).toNat = w.toNat / 65536 := by
  have := w.isLt
  simp only [highHalf, BitVec.extractLsb'_toNat, Nat.shiftRight_eq_div_pow]
  omega

/-- Two halves make a word, the second one low (spec/10_state.md R29). -/
theorem append_half_toNat (a b : Half) : (a ++ b).toNat = b.toNat + 2 ^ 16 * a.toNat := by
  have := b.isLt
  rw [BitVec.toNat_append, ← Nat.shiftLeft_add_eq_or_of_lt (by omega)]
  simp only [Nat.shiftLeft_eq]
  omega

theorem lowWord_toNat (d : DWord) : (lowWord d).toNat = d.toNat % 2 ^ 32 := by
  simp [lowWord, BitVec.extractLsb'_toNat]

theorem highWord_toNat (d : DWord) : (highWord d).toNat = d.toNat / 2 ^ 32 := by
  have := d.isLt
  simp only [highWord, BitVec.extractLsb'_toNat, Nat.shiftRight_eq_div_pow]
  omega

/-- The two registers of a 64-bit count hold it (spec/10_state.md R31). -/
theorem lowWord_add_highWord (d : DWord) : (lowWord d).toNat + 2 ^ 32 * (highWord d).toNat = d.toNat := by
  rw [lowWord_toNat, highWord_toNat]
  omega

theorem saturate64_toNat (n : Nat) : (saturate64 n).toNat = min n (2 ^ 64 - 1) := by
  rw [saturate64, BitVec.toNat_ofNat]
  omega

theorem overCapacity_iff (p : Params) (n : Nat) :
    overCapacity p n = true ↔ ∃ m, p.maxBlocks = some m ∧ m < n := by
  unfold overCapacity
  cases p.maxBlocks <;> simp

/-- Parsing a block reads that block's bytes alone. -/
theorem parseBlock_congr {v : Variant} {m m' : List Host.Cell} {o : Nat}
    (h : ∀ k, k < blockSize v → memByte m (o + k) = memByte m' (o + k)) : parseBlock v m o = parseBlock v m' o := by
  have part : ∀ a n, a + n ≤ blockSize v → memRead m (o + a) n = memRead m' (o + a) n := fun a n han =>
    memRead_congr fun k hk => by simpa [Nat.add_assoc] using h (a + k) (by omega)
  cases v
  · have h0 := part 0 2 (by decide)
    rw [Nat.add_zero] at h0
    simp only [parseBlock, colourOffset, parseAlpha, Nat.add_zero, h0, part 2 2 (by decide), part 4 4 (by decide)]
  · have h0 := part 0 8 (by decide)
    rw [Nat.add_zero] at h0
    simp only [parseBlock, colourOffset, parseAlpha, Nat.add_assoc, h0, part 8 2 (by decide),
      part (8 + 2) 2 (by decide), part (8 + 4) 4 (by decide)]

@[simp] theorem parseGrid_length (v : Variant) (m : List Host.Cell) (n : Nat) : (parseGrid v m n).length = n := by
  simp [parseGrid]

/-- Block `k` of the grid is the one parsed at `k` block sizes. -/
theorem parseGrid_getElem? {v : Variant} {m : List Host.Cell} {n k : Nat} {b : BlockRecord}
    (h : (parseGrid v m n)[k]? = some b) : k < n ∧ b = parseBlock v m (k * blockSize v) := by
  have hk : k < n := by simpa using (List.getElem?_eq_some_iff.mp h).1
  simp [parseGrid, hk] at h
  exact ⟨hk, h.symm⟩

/-- Parsing the grid reads its bytes alone. -/
theorem parseGrid_congr {v : Variant} {m m' : List Host.Cell} {n : Nat}
    (h : ∀ off, off < n * blockSize v → memByte m off = memByte m' off) : parseGrid v m n = parseGrid v m' n := by
  refine List.map_congr_left fun k hk => parseBlock_congr fun j hj => h _ ?_
  calc k * blockSize v + j < k * blockSize v + blockSize v := by omega
    _ = (k + 1) * blockSize v := (Nat.succ_mul _ _).symm
    _ ≤ n * blockSize v := Nat.mul_le_mul_right _ (by simpa using hk)

end Sys2Proof.Machine
end

