-- ==== Sys2Proof/Tests/Slice0.lean ====
section
/-! SUPPORT. The model's tests, with results from spec/95_test_vectors.md and spec/30_encoding.md, and a witness for every
statement of Obligations.lean that has hypotheses. -/

namespace Sys2Proof.Tests

open Sys2Proof Sys2Proof.Machine Sys2Proof.Claims

/-! ## Small states -/

/-- The next state of an answer. -/
def after : Result → Option State
  | .next t    => some t
  | .fault _   => none
  | .refused _ => none

/-- After reset, with these registers. -/
def regsState (f : Regs → Regs) : State := { State.reset with regs := f Regs.reset }

/-- After reset, with `ARG0`, `SRC_LEN` and these bytes from SRC offset 0 on. -/
def parseState (arg0 srcLen : Word) (bytes : List Byte) : State :=
  { regsState (fun r => { r with arg0 := arg0, srcLen := srcLen }) with src := memStoreAll [] 0 bytes }

/-- After reset, with `WIDTH`, `HEIGHT`, `SRC_LEN` and these bytes from SRC offset 0 on. -/
def decodeState (w h srcLen : Word) (bytes : List Byte) : State :=
  { regsState (fun r => { r with width := w, height := h, srcLen := srcLen }) with src := memStoreAll [] 0 bytes }

/-- After reset, with `BLK_COL` and `BLK_IDX`. -/
def reconState (col idx : Word) : State := regsState fun r => { r with blkCol := col, blkIdx := idx }

/-- A stored image of the no-alpha variant, with `DST_LEN`. -/
def imageState (w h dstLen : Word) (blocks : List BlockRecord) : State :=
  { regsState (fun r => { r with dstLen := dstLen }) with img := ⟨true, w, h, .noAlpha, blocks⟩ }

/-- Block 0 of V21. -/
def redBlue : BlockRecord := ⟨0xF800, 0x001F, 0xE4E4E4E4, 0⟩

/-- Block 1 of V21. -/
def greenBlack : BlockRecord := ⟨0x07E0, 0x0000, 0x1B1B1B1B, 0⟩

/-- The block of V7 row 1. -/
def blockBytes : List Byte := [0x00, 0xF8, 0x1F, 0x00, 0xE4, 0x00, 0x00, 0xFF]

/-- A state with a word issued and the engine next to move. -/
def issued (w : Word) (s : State) : State := s.issueAfter w 0

/-- A state whose host does one action next, with no command pending. -/
def told (a : HostAct) (s : State) : State := { s with script := [a] }

/-- A state with a word pending whose host does one action before the completion. -/
def toldBusy (w : Word) (a : HostAct) (s : State) : State := { s.issueAfter w 1 with script := [a] }

/-- A state with the violation mark, and what the host does next. -/
def marked (acts : List HostAct) : State := { State.reset with violation := true, script := acts }

theorem engineMoves_issued (w : Word) : EngineMoves (issued w State.reset) w := ⟨rfl, rfl, .inl rfl⟩

theorem hostMoves_told (a : HostAct) : HostMoves (told a State.reset) a [] := ⟨rfl, rfl, .inl rfl⟩

theorem hostMoves_toldBusy (w : Word) (a : HostAct) : HostMoves (toldBusy w a State.reset) a [] :=
  ⟨rfl, rfl, .inr Nat.one_ne_zero⟩

/-! ## Decoding: words written from spec/30_encoding.md R90 and R94 (V8) -/

theorem test_decode_cvt565 : decode 0b00000000000000000000000000_0_0_0001#32 = .ok .cvt565 := by decide

theorem test_decode_parseblk_dxt1 : decode 0b00000000000000000000000000_0_0_0010#32 = .ok .parseblkDxt1 := by decide

theorem test_decode_parseblk_dxt3 : decode 0b00000000000000000000000000_0_1_0010#32 = .ok .parseblkDxt3 := by decide

theorem test_decode_recon : decode 0b00000000000000000000000000_0_0_0011#32 = .ok .recon := by decide

theorem test_decode_decode_dxt1 : decode 0b00000000000000000000000000_0_0_0100#32 = .ok .decodeDxt1 := by decide

theorem test_decode_decode_dxt3 : decode 0b00000000000000000000000000_0_1_0100#32 = .ok .decodeDxt3 := by decide

theorem test_decode_assemble_rgb : decode 0b00000000000000000000000000_0_0_0101#32 = .ok .assembleRgb := by decide

theorem test_decode_assemble_rgba : decode 0b00000000000000000000000000_1_0_0101#32 = .ok .assembleRgba := by decide

theorem test_decode_reserved_op :
    ([0x00000000#32, 0x00000006#32, 0x0000000F#32].all fun w => decode w = .error .reservedOp) = true := by decide

theorem test_decode_reserved_bits :
    ([0x00000041#32, 0x80000004#32].all fun w => decode w = .error .reservedBits) = true := by decide

theorem test_decode_unused_variant :
    ([0x00000011#32, 0x00000013#32, 0x00000015#32].all fun w => decode w = .error .unusedVariant) = true := by decide

theorem test_decode_unused_channel :
    ([0x00000021#32, 0x00000022#32, 0x00000023#32, 0x00000024#32].all
      fun w => decode w = .error .unusedChannel) = true := by decide

theorem test_table_word : decodeTableWord 32 0x00000025 = some .assembleRgba ∧ decodeTableWord 32 0 = none := by decide

/-! ## WellFormed: one ill-formed term for each check -/

theorem test_wf_good : (CmdFields.mk 4 true false 0).wf = true := by decide

theorem test_wf_op_zero : (CmdFields.mk 0 false false 0).opDefined = false ∧ (CmdFields.mk 0 false false 0).wf = false := by
  decide

theorem test_wf_op_six : (CmdFields.mk 6 false false 0).opDefined = false ∧ (CmdFields.mk 6 false false 0).wf = false := by
  decide

theorem test_wf_reserved :
    (CmdFields.mk 1 false false 1).reservedClear = false ∧ (CmdFields.mk 1 false false 1).wf = false := by decide

theorem test_wf_variant :
    (CmdFields.mk 3 true false 0).variantUsed = false ∧ (CmdFields.mk 3 true false 0).wf = false := by decide

theorem test_wf_channel :
    (CmdFields.mk 4 false true 0).channelUsed = false ∧ (CmdFields.mk 4 false true 0).wf = false := by decide

/-! ## One step of each command -/

/-- V3, `p = 0x1234` under `R_HIGH`. -/
theorem test_cvt565_r_high :
    (after (exec .cvt565 (regsState fun r => { r with arg0 := 0xFFFF1234 }))).map (·.regs.res) = some 0xFFA44410#32 := by
  decide

/-- V3, `p = 0xABCD` under `B_HIGH`. -/
theorem test_cvt565_b_high :
    (after (exec .cvt565 { regsState (fun r => { r with arg0 := 0xABCD }) with
      params := { Params.default with layout565 := .bHigh } })).map (·.regs.res) = some 0xFFAC796A#32 := by decide

/-- V7, the unaligned offset. -/
theorem test_parseblk_dxt1_unaligned :
    (after (exec .parseblkDxt1 (parseState 1 9 (0xAA :: blockBytes)))).map (fun t => (t.regs.blkCol, t.regs.blkIdx)) =
      some (0x001FF800#32, 0xFF0000E4#32) := by decide

/-- V7, the offset past the end does not wrap. -/
theorem test_parseblk_dxt1_past_end :
    (after (exec .parseblkDxt1 (parseState 9 8 blockBytes))).map
      (fun t => (readReg t .status, t.regs.errReqLo, t.regs.errAvail)) = some (0x22#32, 8#32, 0#32) := by decide

/-- V7, the payload. -/
theorem test_parseblk_dxt3 :
    (after (exec .parseblkDxt3 (parseState 0 16
      ([0x11, 0x22, 0x33, 0x44, 0x55, 0x66, 0x77, 0x88] ++ [0x00, 0xF8, 0x1F, 0x00, 0xE4, 0xE4, 0xE4, 0xE4])))).map
      (fun t => [t.regs.blkAlphaLo, t.regs.blkAlphaHi, t.regs.blkCol, t.regs.blkIdx]) =
      some [0x44332211#32, 0x88776655#32, 0x001FF800#32, 0xE4E4E4E4#32] := by decide

/-- V7, an 8-byte source is too short for the alpha variant. -/
theorem test_parseblk_dxt3_short :
    (after (exec .parseblkDxt3 (parseState 0 8 blockBytes))).map
      (fun t => (t.err, t.regs.errReqLo, t.regs.errAvail)) = some (.invalidData, 16#32, 8#32) := by decide

/-- V6 row 1, the first and the last row. -/
theorem test_recon_msb_first :
    (after (exec .recon (reconState 0x001FF800 0xFF0000E4))).map (fun t => t.regs.tile.toList.take 4) =
      some [0xFF0000FF#32, 0xFF5500AA#32, 0xFFAA0055#32, 0xFFFF0000#32] := by decide

/-- V6 row 4, under `LSB_FIRST`. -/
theorem test_recon_lsb_first :
    (after (exec .recon { reconState 0x0000FFFF 0x1B1B1B1B with
      params := { Params.default with colOrder := .lsbFirst } })).map (fun t => t.regs.tile.toList.drop 12) =
      some [0xFFFFFFFF#32, 0xFFAAAAAA#32, 0xFF555555#32, 0xFF000000#32] := by decide

/-- V33: a 1 × 1 image needs a whole block. -/
theorem test_decode_dxt1_one_pixel :
    (after (exec .decodeDxt1 (decodeState 1 1 8 blockBytes))).map
      (fun t => [readReg t .status, readReg t .imgNblk, t.regs.errPixLo, t.regs.errReqLo]) =
      some [0x06#32, 1#32, 1#32, 8#32] := by decide

/-- V40: the capacity is checked after the length. -/
theorem test_decode_dxt1_capacity :
    (after (exec .decodeDxt1 { decodeState 16 16 128 [] with
      params := { Params.default with maxBlocks := some 15 } })).map
      (fun t => [readReg t .status, t.regs.errReqLo, readReg t .imgNblk]) = some [0x62#32, 128#32, 0#32] := by decide

/-- V32: two blocks of the alpha variant. -/
theorem test_decode_dxt3_two_blocks :
    (after (exec .decodeDxt3 (decodeState 8 4 32 []))).map
      (fun t => [readReg t .status, readReg t .imgNblk, readReg t .imgInfo, t.regs.errReqLo]) =
      some [0x06#32, 2#32, 1#32, 32#32] := by decide

/-- V38: the required count is saturated. -/
theorem test_decode_dxt3_saturates :
    (after (exec .decodeDxt3 (decodeState 0xFFFFFFFF 0xFFFFFFFF 0xFFFFFFFF []))).map
      (fun t => [readReg t .status, t.regs.errPixLo, t.regs.errPixHi, t.regs.errReqLo, t.regs.errReqHi]) =
      some [0x22#32, 0x00000001#32, 0xFFFFFFFE#32, 0xFFFFFFFF#32, 0xFFFFFFFF#32] := by decide

/-- V21: the second output row joins the two tiles' rows. -/
theorem test_assemble_rgb_two_tiles :
    (after (exec .assembleRgb (imageState 8 4 96 [redBlue, greenBlack]))).map (fun t => memSlice t.dst 24 24) =
      some ([0xFF, 0x00, 0x00, 0xAA, 0x00, 0x55, 0x55, 0x00, 0xAA, 0x00, 0x00, 0xFF] ++
        [0x00, 0x00, 0x00, 0x00, 0x55, 0x00, 0x00, 0xAA, 0x00, 0x00, 0xFF, 0x00]) := by decide

/-- V24: nothing is stored after reset. -/
theorem test_assemble_rgb_no_image :
    (after (exec .assembleRgb State.reset)).map (fun t => (readReg t .status, t.regs.outLen)) =
      some (0x42#32, 0#32) := by decide

/-- V22, `CROP`: the edge tile is cut. -/
theorem test_assemble_rgba_crop :
    (after (exec .assembleRgba (imageState 5 1 20 [redBlue, greenBlack]))).map (fun t => memSlice t.dst 0 20) =
      some ([0xFF, 0x00, 0x00, 0xFF, 0xAA, 0x00, 0x55, 0xFF, 0x55, 0x00, 0xAA, 0xFF] ++
        [0x00, 0x00, 0xFF, 0xFF, 0x00, 0x00, 0x00, 0xFF]) := by decide

/-- V22, `OVERDECODE`: 128 bytes do not fit 20. -/
theorem test_assemble_rgba_overdecode :
    (after (exec .assembleRgba { imageState 5 1 20 [redBlue, greenBlack] with
      params := { Params.default with edgePolicy := .overdecode } })).map
      (fun t => [readReg t .status, t.regs.errReqLo, t.regs.errAvail, t.regs.outLen]) =
      some [0x56#32, 128#32, 20#32, 0#32] := by decide

/-! ## The host's steps and the script -/

/-- V8: an illegal word completes with code 3 and stays in `CMD`. -/
theorem test_illegal_word_completes :
    (after (step (State.reset.withFetchWord 32 0x11))).map (fun t => (readReg t .status, readReg t .cmd)) =
      some (0x32#32, 0x11#32) := by decide

/-- The first transactions of P1, with a mnemonic in other letters (spec/30_encoding.md R105). -/
theorem test_program_cvt :
    program [.cvt 0x00008410, .rd (.name .res)] =
      [.regWrite 32 0x18 0x00008410, .regWrite 32 0x00 0x00000001, .poll, .regRead 32 0x1C] ∧
    instrNamed "decode.Dxt3" = some .decodeDxt3 := by decide

/-- spec/70_reset_and_hazards.md R285 item 2: a register write while BUSY = 1 (the step of P6). -/
theorem test_write_while_busy :
    (after (step (toldBusy 4 (.regWrite 32 0x08 8) State.reset))).map (fun t => (t.violation, t.regs.width)) =
      some (true, 0#32) := by decide

/-- spec/10_state.md R21: the last register, and the gap after it. -/
theorem test_register_map : regAt 0xBC = some (.tile 15) ∧ regAt 0xC0 = none ∧ regNamed "TILE10" = some (.tile 10) := by
  decide

/-- spec/70_reset_and_hazards.md R280: reset keeps the violation mark. -/
theorem test_reset_keeps_mark : (after (step (marked [.reset]))).map (·.violation) = some true := by decide

/-! ## Witnesses: the hypotheses of each statement can hold, at the ends of their ranges -/

theorem witness_decode_follows_the_opcode_map :
    0x00000000#32 ∉ [0x00000001#32, 0x00000002#32, 0x00000012#32, 0x00000003#32, 0x00000004#32, 0x00000014#32,
      0x00000005#32, 0x00000025#32] ∧
    0xFFFFFFFF#32 ∉ [0x00000001#32, 0x00000002#32, 0x00000012#32, 0x00000003#32, 0x00000004#32, 0x00000014#32,
      0x00000005#32, 0x00000025#32] ∧
    EngineMoves (issued 0x25 State.reset) 0x25 ∧ EngineMoves (issued 0x06 State.reset) 0x06 :=
  ⟨by decide, by decide, engineMoves_issued _, engineMoves_issued _⟩

/-- The engine also moves when the host has nothing left to do, whatever the delay. -/
theorem witness_engine_moves_after_the_script : EngineMoves (State.reset.issueAfter 1 7) 1 := ⟨rfl, rfl, .inr rfl⟩

theorem witness_decode_and_encode_agree : decode 0x00000025#32 = .ok .assembleRgba ∧ decode (encode .cvt565) = .ok .cvt565 := by
  decide

/-- Each case of spec/30_encoding.md R96 at the ends of its range is an illegal word. -/
theorem witness_illegal_words :
    ∀ w ∈ [0x00#32, 0x06#32, 0x0F#32, 0x41#32, 0x80000004#32, 0x11#32, 0x13#32, 0x15#32, 0x21#32, 0x24#32],
      ∃ e, decode w = .error e := by
  simp only [List.forall_mem_cons, List.not_mem_nil, false_imp_iff, implies_true, and_true]
  exact ⟨⟨.reservedOp, by decide⟩, ⟨.reservedOp, by decide⟩, ⟨.reservedOp, by decide⟩, ⟨.reservedBits, by decide⟩,
    ⟨.reservedBits, by decide⟩, ⟨.unusedVariant, by decide⟩, ⟨.unusedVariant, by decide⟩, ⟨.unusedVariant, by decide⟩,
    ⟨.unusedChannel, by decide⟩, ⟨.unusedChannel, by decide⟩⟩

theorem witness_illegal_words_change_only_status :
    (HostMoves (told (.regWrite 32 0 0x11) State.reset) (.regWrite 32 0 0x11) [] ∧
      (told (.regWrite 32 0 0x11) State.reset).pending = none ∧ ∃ e, decode 0x11#32 = .error e) ∧
    EngineMoves (issued 0x11 State.reset) 0x11 :=
  ⟨⟨hostMoves_told _, rfl, .unusedVariant, by decide⟩, engineMoves_issued _⟩

theorem witness_step_performs_the_decoded_command :
    (EngineMoves (issued 0x14 State.reset) 0x14 ∧ decode 0x14#32 = .ok .decodeDxt3) ∧
    decodeTableWord 32 0x14 = some .decodeDxt3 := ⟨⟨engineMoves_issued _, by decide⟩, by decide⟩

theorem witness_every_command_completes_once :
    EngineMoves (issued 0x01 State.reset) 0x01 ∧ EngineMoves (issued 0x00 State.reset) 0x00 :=
  ⟨engineMoves_issued _, engineMoves_issued _⟩

theorem witness_busy_status_while_pending :
    (issued 0x05 State.reset).Inv ∧ (issued 0x05 State.reset).pending = some 0x05 := by
  unfold State.Inv
  decide

theorem witness_cmd_write_issues :
    (HostMoves (told (.regWrite 32 0 0xFFFFFFFF) State.reset) (.regWrite 32 0 0xFFFFFFFF) [] ∧
      (told (.regWrite 32 0 0xFFFFFFFF) State.reset).pending = none) ∧
    (HostMoves (toldBusy 1 (.regWrite 32 0 1) State.reset) (.regWrite 32 0 1) [] ∧
      (toldBusy 1 (.regWrite 32 0 1) State.reset).pending ≠ none) :=
  ⟨⟨hostMoves_told _, rfl⟩, hostMoves_toldBusy _ _, by decide⟩

/-- The last offset that succeeds, at the start and at the top of SRC. -/
theorem witness_parseblk_dxt1_writes_record :
    (parseState 0 8 blockBytes).regs.arg0.toNat + 8 ≤ (parseState 0 8 blockBytes).regs.srcLen.toNat ∧
    (parseState 0xFFFFFFF7 0xFFFFFFFF []).regs.arg0.toNat + 8 ≤ (parseState 0xFFFFFFF7 0xFFFFFFFF []).regs.srcLen.toNat := by
  decide

theorem witness_parseblk_dxt3_writes_record :
    (parseState 0 16 blockBytes).regs.arg0.toNat + 16 ≤ (parseState 0 16 blockBytes).regs.srcLen.toNat ∧
    (parseState 0xFFFFFFEF 0xFFFFFFFF []).regs.arg0.toNat + 16 ≤
      (parseState 0xFFFFFFEF 0xFFFFFFFF []).regs.srcLen.toNat := by decide

/-- The first offset that fails, for both variants, and the largest offset. -/
theorem witness_parseblk_failure :
    (parseState 1 8 []).regs.srcLen.toNat < (parseState 1 8 []).regs.arg0.toNat + bytesPerBlock .noAlpha ∧
    (parseState 1 16 []).regs.srcLen.toNat < (parseState 1 16 []).regs.arg0.toNat + bytesPerBlock .alpha ∧
    (parseState 0xFFFFFFFF 0 []).regs.srcLen.toNat <
      (parseState 0xFFFFFFFF 0 []).regs.arg0.toNat + bytesPerBlock .noAlpha := by decide

/-- The spaces differ at the byte just past the block. -/
theorem witness_parseblk_reads_only_its_block :
    (∀ k, k < bytesPerBlock .noAlpha →
      memByte [(8, 1)] ((parseState 0 16 []).regs.arg0.toNat + k) =
        memByte (parseState 0 16 []).src ((parseState 0 16 []).regs.arg0.toNat + k)) ∧
    memByte [(8, 1)] 8 ≠ memByte (parseState 0 16 []).src 8 := by decide

theorem witness_codes_use_every_bit_pair_once : (3 : Nat) < 4 ∧ (15 : Nat) < 16 := by decide

/-- A RECON with equal endpoints, with all codes 0 and with all codes 3. -/
theorem witness_recon_corner_cases :
    (∃ t, exec .recon (reconState 0x12341234 5) = .next t) ∧
    (reconState 0x12341234 5).regs.blkCol.toNat % 65536 = (reconState 0x12341234 5).regs.blkCol.toNat / 65536 ∧
    (∃ t, exec .recon (reconState 0x0000FFFF 0) = .next t) ∧ (reconState 0x0000FFFF 0).regs.blkIdx = 0 ∧
    (∃ t, exec .recon (reconState 0x0000FFFF 0xFFFFFFFF) = .next t) ∧
    (reconState 0x0000FFFF 0xFFFFFFFF).regs.blkIdx = 0xFFFFFFFF#32 :=
  ⟨⟨_, rfl⟩, by decide, ⟨_, rfl⟩, rfl, ⟨_, rfl⟩, rfl⟩

/-- A buffer of exactly the required length, with a capacity of exactly the block count. -/
theorem witness_decode_stores_the_grid :
    let s := { decodeState 1 1 16 [] with params := { Params.default with maxBlocks := some 1 } }
    ¬(s.regs.width.toNat = 0 ∧ s.regs.height.toNat = 0) ∧ tileCount s * bytesPerBlock .alpha ≤ s.regs.srcLen.toNat ∧
      ∀ m, s.params.maxBlocks = some m → tileCount s ≤ m := by
  refine ⟨by decide, by decide, ?_⟩
  rintro m h
  cases h
  decide

/-- The default capacity is none, and a width alone may be zero. -/
theorem witness_decode_stores_the_grid_unbounded :
    let s := decodeState 0 7 0 []
    ¬(s.regs.width.toNat = 0 ∧ s.regs.height.toNat = 0) ∧ tileCount s * bytesPerBlock .noAlpha ≤ s.regs.srcLen.toNat ∧
      ∀ m, s.params.maxBlocks = some m → tileCount s ≤ m := ⟨by decide, by decide, fun _ h => nomatch h⟩

/-- One byte too few, and the largest required count, which saturates. -/
theorem witness_decode_too_short :
    (let s := decodeState 4 4 7 []
     ¬(s.regs.width.toNat = 0 ∧ s.regs.height.toNat = 0) ∧ s.regs.srcLen.toNat < tileCount s * bytesPerBlock .noAlpha) ∧
    (let s := decodeState 0xFFFFFFFF 0xFFFFFFFF 0xFFFFFFFF []
     ¬(s.regs.width.toNat = 0 ∧ s.regs.height.toNat = 0) ∧ s.regs.srcLen.toNat < tileCount s * bytesPerBlock .alpha ∧
       tileCount s * bytesPerBlock .alpha = 2 ^ 64) := by decide

theorem witness_decode_records_sizes :
    (∃ t, exec (decodeCmd .noAlpha) (decodeState 4 4 7 []) = .next t) ∧
    ¬((decodeState 4 4 7 []).regs.width.toNat = 0 ∧ (decodeState 4 4 7 []).regs.height.toNat = 0) ∧
    (∃ t, exec (decodeCmd .alpha) (decodeState 0 0 7 []) = .next t) ∧
    ((decodeState 0 0 7 []).regs.width.toNat = 0 ∧ (decodeState 0 0 7 []).regs.height.toNat = 0) :=
  ⟨⟨_, rfl⟩, by decide, ⟨_, rfl⟩, by decide⟩

theorem witness_degenerate_dimensions :
    ((decodeState 0 0 1000 []).regs.width = 0 ∧ (decodeState 0 0 1000 []).regs.height = 0) ∧
    ((decodeState 0 1 0 []).regs.width = 0 ∧ (decodeState 0 1 0 []).regs.height ≠ 0) ∧
    ((decodeState 0xFFFFFFFF 0 0 []).regs.width ≠ 0 ∧ (decodeState 0xFFFFFFFF 0 0 []).regs.height = 0) := by decide

/-- One block more than the capacity (V40); the two capacities that never raise the error; the longest source. -/
theorem witness_capacity_error :
    (let s := { decodeState 16 16 128 [] with params := { Params.default with maxBlocks := some 15 } }
     s.params.maxBlocks = some 15 ∧ ¬(s.regs.width = 0 ∧ s.regs.height = 0) ∧
       tileCount s * bytesPerBlock .noAlpha ≤ s.regs.srcLen.toNat ∧ 15 < tileCount s) ∧
    ((∃ t, exec (decodeCmd .noAlpha) State.reset = .next t) ∧ State.reset.params.maxBlocks = none) ∧
    (let s := { State.reset with params := { Params.default with maxBlocks := some (2 ^ 29) } }
     (∃ t, exec (decodeCmd .noAlpha) s = .next t) ∧ ∃ m, s.params.maxBlocks = some m ∧ 2 ^ 29 ≤ m) ∧
    tileCount (decodeState 4 4 8 []) * bytesPerBlock .noAlpha ≤ (decodeState 4 4 8 []).regs.srcLen.toNat :=
  ⟨by decide, ⟨⟨_, rfl⟩, rfl⟩, ⟨⟨_, rfl⟩, 2 ^ 29, rfl, by decide⟩, by decide⟩

/-- A DECODE that fails, a store with no image, and a step that fills it. -/
theorem witness_failed_decode_leaves_no_image :
    ((after (exec (decodeCmd .noAlpha) State.reset)).map (·.err) = some .invalidInput) ∧
    State.reset.img.valid = false ∧
    ((after (step (issued 0x04 (decodeState 1 1 8 [])))).map (·.img.valid) = some true ∧
      (issued 0x04 (decodeState 1 1 8 [])).img.valid = false) := by decide

/-- The three properties of spec/45_decode.md R228 on a 1 × 1 image. -/
theorem witness_decode_testable_properties :
    ((decodeState 1 1 8 []).regs.width ≠ 0 ∧ (decodeState 1 1 8 []).regs.height ≠ 0 ∧
      (decodeState 1 1 8 []).params.maxBlocks = none ∧
      (decodeState 1 1 8 []).regs.srcLen.toNat = tileCount (decodeState 1 1 8 []) * bytesPerBlock .noAlpha) ∧
    ((decodeState 1 1 15 []).regs.width ≠ 0 ∧ (decodeState 1 1 15 []).regs.height ≠ 0 ∧
      (decodeState 1 1 15 []).regs.srcLen.toNat + 1 = tileCount (decodeState 1 1 15 []) * bytesPerBlock .alpha) ∧
    (State.reset.regs.width = 0 ∧ State.reset.regs.height = 0) := by decide

/-- Two states that differ past the required bytes and in `DST_LEN`. -/
theorem witness_decode_depends_only_on_its_operands :
    let s := decodeState 4 4 9 []
    let u : State := { regsState (fun r => { r with width := 4, height := 4, srcLen := 9, dstLen := 1 }) with src := [(8, 1)] }
    s.regs.width = u.regs.width ∧ s.regs.height = u.regs.height ∧ s.regs.srcLen = u.regs.srcLen ∧
      s.params.maxBlocks = u.params.maxBlocks ∧ s ≠ u ∧
      ∀ off, off < tileCount s * bytesPerBlock .noAlpha → memByte s.src off = memByte u.src off := by decide

/-- An output of exactly `DST_LEN` bytes, with its first pixel; under the other policy; and one of no pixel. -/
theorem witness_assemble_writes_the_image :
    (let s := imageState 5 1 20 [redBlue, greenBlack]
     memWf s.dst = true ∧ storeWf s.img = true ∧ s.img.valid = true ∧ outputLength s .rgba ≤ s.regs.dstLen.toNat ∧
       0 < outputWidth s ∧ 0 < outputHeight s ∧ 3 < bytesPerPixel .rgba ∧ outputLength s .rgba = 20) ∧
    (let s := { imageState 5 1 96 [redBlue, greenBlack] with params := { Params.default with edgePolicy := .overdecode } }
     memWf s.dst = true ∧ storeWf s.img = true ∧ s.img.valid = true ∧ outputLength s .rgb ≤ s.regs.dstLen.toNat ∧
       7 < outputWidth s ∧ 3 < outputHeight s ∧ 2 < bytesPerPixel .rgb) ∧
    (let s := imageState 0 7 0 []
     memWf s.dst = true ∧ storeWf s.img = true ∧ s.img.valid = true ∧ outputLength s .rgb ≤ s.regs.dstLen.toNat) := by
  decide

/-- No image; and one byte too few. -/
theorem witness_assemble_failures :
    State.reset.img.valid = false ∧
    ((imageState 4 4 63 [redBlue]).img.valid = true ∧
      (imageState 4 4 63 [redBlue]).regs.dstLen.toNat < outputLength (imageState 4 4 63 [redBlue]) .rgba) ∧
    (imageState 4 4 47 [redBlue]).regs.dstLen.toNat < outputLength (imageState 4 4 47 [redBlue]) .rgb := by decide

theorem witness_assembled_tiles_one :
    let s := imageState 4 4 48 [redBlue]
    memWf s.dst = true ∧ s.img.valid = true ∧ s.img.width = 4 ∧ s.img.height = 4 ∧ s.img.blocks = [redBlue] ∧
      16 * bytesPerPixel .rgb ≤ s.regs.dstLen.toNat ∧ (after (exec (assembleCmd .rgb) s)).isSome = true := by decide

theorem witness_assembled_tiles_two :
    let s := imageState 8 4 128 [redBlue, greenBlack]
    memWf s.dst = true ∧ s.img.valid = true ∧ s.img.width = 8 ∧ s.img.height = 4 ∧
      s.img.blocks = [redBlue, greenBlack] ∧ 32 * bytesPerPixel .rgba ≤ s.regs.dstLen.toNat ∧
      (after (exec (assembleCmd .rgba) s)).isSome = true := by decide

theorem witness_edge_policies_agree :
    (imageState 8 4 128 [redBlue, greenBlack]).img.width.toNat % 4 = 0 ∧
    (imageState 8 4 128 [redBlue, greenBlack]).img.height.toNat % 4 = 0 := by decide

/-- Every command answers a next state: what the frames and the rules over all commands assume. -/
theorem witness_every_command_answers : ∀ i, ∃ t, exec i State.reset = .next t := by
  intro i
  cases i <;> exact ⟨_, rfl⟩

/-- An ASSEMBLE that succeeds and one that fails, for the frame of DST. -/
theorem witness_only_assemble_writes_dst :
    (memWf (imageState 4 4 48 [redBlue]).dst = true ∧ outputLength (imageState 4 4 48 [redBlue]) .rgb ≤ 48 ∧
      (after (exec (assembleCmd .rgb) (imageState 4 4 48 [redBlue]))).map (·.err) = some .ok) ∧
    (after (exec (assembleCmd .rgb) (imageState 4 4 47 [redBlue]))).map (·.err) = some .dstTooSmall := by decide

/-- A failing DECODE, ASSEMBLE, PARSEBLK and illegal word. -/
theorem witness_errors_are_precise :
    (after (exec (decodeCmd .alpha) (decodeState 4 4 7 []))).map (·.err) = some .invalidData ∧
    (after (exec (assembleCmd .rgba) (imageState 4 4 63 [redBlue]))).map (·.err) = some .dstTooSmall ∧
    (after (exec (parseCmd .noAlpha) State.reset)).map (·.err) = some .invalidData ∧
    (EngineMoves (issued 0x00 State.reset) 0x00 ∧ decode 0x00#32 = .error .reservedOp) :=
  ⟨by decide, by decide, by decide, engineMoves_issued _, by decide⟩

/-- Each order of checks of spec/60_exceptions.md R254: the premises of each clause, at the ends of their ranges. -/
theorem witness_first_error_is_reported :
    (EngineMoves (issued 0x11 State.reset) 0x11 ∧ decode 0x11#32 = .error .unusedVariant) ∧
    ((decodeState 0 0 0 []).regs.width = 0 ∧ (decodeState 0 0 0 []).regs.height = 0) ∧
    (decodeState 1 1 7 []).regs.srcLen.toNat < tileCount (decodeState 1 1 7 []) * bytesPerBlock .noAlpha ∧
    (let s := { decodeState 1 1 8 [] with params := { Params.default with maxBlocks := some 0 } }
     tileCount s * bytesPerBlock .noAlpha ≤ s.regs.srcLen.toNat ∧ s.params.maxBlocks = some 0 ∧ 0 < tileCount s) ∧
    (let s := { decodeState 1 1 8 [] with params := { Params.default with maxBlocks := some 1 } }
     tileCount s * bytesPerBlock .noAlpha ≤ s.regs.srcLen.toNat ∧ s.params.maxBlocks = some 1 ∧ tileCount s ≤ 1) ∧
    (∃ t, exec .cvt565 State.reset = .next t) ∧ (∃ t, exec .recon State.reset = .next t) :=
  ⟨⟨engineMoves_issued _, by decide⟩, by decide, by decide, by decide, by decide, ⟨_, rfl⟩, _, rfl⟩

/-- Two spaces that differ at offset `SRC_LEN`. -/
theorem witness_no_read_past_src_len :
    (∀ off, off < (decodeState 4 4 8 []).regs.srcLen.toNat → memByte [(8, 1)] off = memByte (decodeState 4 4 8 []).src off) ∧
    memByte [(8, 1)] 8 ≠ memByte (decodeState 4 4 8 []).src 8 := by decide

theorem witness_no_write_past_dst_len :
    memWf (issued 0x05 (imageState 4 4 48 [redBlue])).dst = true ∧
    EngineMoves (issued 0x05 (imageState 4 4 48 [redBlue])) 0x05 ∧
    ∃ t, step (issued 0x05 (imageState 4 4 48 [redBlue])) = .next t := ⟨rfl, ⟨rfl, rfl, .inl rfl⟩, _, rfl⟩

theorem witness_decoded_data_are_copies :
    HostMoves (told (.srcWrite 0 blockBytes) State.reset) (.srcWrite 0 blockBytes) [] ∧
    ∃ t, step (told (.srcWrite 0 blockBytes) State.reset) = .next t := ⟨hostMoves_told _, _, rfl⟩

theorem witness_register_map :
    regAt 0x00 = some .cmd ∧ regAt 0xBC = some (.tile 15) ∧
    (0x58 ≤ 0x58 ∧ 0x58 < 0x80) ∧ (0x58 ≤ 0x7C ∧ 0x7C < 0x80) ∧ 0xC0 ≤ 0xC0 ∧
    .blkAlphaHi ∈ hostWritable ∧ .res ∉ hostWritable ∧ .tile 15 ∉ hostWritable ∧
    State.reset.img.variant = .noAlpha ∧ State.reset.img.blocks.length < 2 ^ 32 ∧
    ((after (exec (decodeCmd .alpha) (decodeState 4 4 16 []))).map (·.img.variant) = some .alpha) := by decide

/-- One action of each forbidden kind: width, alignment, unmapped, write to RO, register, SRC and DST while BUSY = 1. -/
theorem witness_forbidden :
    Forbidden (told (.regRead 16 4) State.reset) (.regRead 16 4) ∧
    Forbidden (told (.regRead 32 6) State.reset) (.regRead 32 6) ∧
    Forbidden (told (.regWrite 32 0x04 0) State.reset) (.regWrite 32 0x04 0) ∧
    Forbidden (toldBusy 1 (.regWrite 32 0x08 0) State.reset) (.regWrite 32 0x08 0) ∧
    Forbidden (toldBusy 1 (.srcWrite 0 []) State.reset) (.srcWrite 0 []) ∧
    Forbidden (toldBusy 1 (.dstWrite 0 []) State.reset) (.dstWrite 0 []) :=
  ⟨.inl (by decide), .inr (.inl (by decide)), .inr (.inl ⟨.status, rfl, by decide⟩),
    .inr (.inr (by decide)), (nofun : some (1 : Word) ≠ none), (nofun : some (1 : Word) ≠ none)⟩

theorem witness_forbidden_unmapped : Forbidden (told (.regRead 32 0x58) State.reset) (.regRead 32 0x58) := by
  refine .inr (.inr fun r => ?_)
  cases r <;> first | decide | (rename_i k; revert k; decide)

theorem witness_not_forbidden :
    ¬Forbidden (told (.regRead 32 0x04) State.reset) (.regRead 32 0x04) ∧
    (∃ t, step (told (.regRead 32 0x04) State.reset) = .next t) ∧
    ¬Forbidden (toldBusy 1 .reset State.reset) .reset ∧ (∃ t, step (toldBusy 1 .reset State.reset) = .next t) := by
  refine ⟨?_, ⟨_, rfl⟩, id, _, rfl⟩
  rintro (h | h | h)
  · exact h rfl
  · exact h rfl
  · exact h .status rfl

theorem witness_violation_mark_sticks :
    ((marked [.reset]).violation = true ∧ ∃ t, step (marked [.reset]) = .next t) ∧
    ((marked [.poll]).violation = true ∧ ∀ rest, (marked [.poll]).script ≠ .reset :: rest) ∧
    (EngineMoves (issued 0x01 State.reset) 0x01 ∧ ∃ t, step (issued 0x01 State.reset) = .next t) :=
  ⟨⟨rfl, _, rfl⟩, ⟨rfl, fun _ h => nomatch h⟩, engineMoves_issued _, _, rfl⟩

/-- Reads while BUSY = 0, the last one of the last byte of the space. -/
theorem witness_idle_reads :
    (HostMoves (told (.regRead 32 (regOffset (.tile 15))) State.reset) (.regRead 32 (regOffset (.tile 15))) [] ∧
      (told (.regRead 32 (regOffset (.tile 15))) State.reset).pending = none) ∧
    (HostMoves (told (.dstRead 0xFFFFFFFF 1) State.reset) (.dstRead 0xFFFFFFFF 1) [] ∧
      (told (.dstRead 0xFFFFFFFF 1) State.reset).pending = none ∧ 0xFFFFFFFF + 1 ≤ 2 ^ 32) :=
  ⟨⟨hostMoves_told _, rfl⟩, hostMoves_told _, rfl, by decide⟩

theorem witness_busy_reads :
    ((toldBusy 1 (.regRead 32 0x04) State.reset).Inv ∧ (toldBusy 1 (.regRead 32 0x04) State.reset).pending = some 1 ∧
      HostMoves (toldBusy 1 (.regRead 32 0x04) State.reset) (.regRead 32 0x04) []) ∧
    ((toldBusy 1 (.regRead 32 0x00) State.reset).Inv ∧
      HostMoves (toldBusy 1 (.regRead 32 0x00) State.reset) (.regRead 32 0x00) []) ∧
    ((toldBusy 1 (.regRead 32 (regOffset .res)) State.reset).pending ≠ none ∧ RegName.res ≠ .status ∧ RegName.res ≠ .cmd ∧
      HostMoves (toldBusy 1 (.regRead 32 (regOffset .res)) State.reset) (.regRead 32 (regOffset .res)) []) ∧
    ((toldBusy 1 (.dstRead 0 0) State.reset).pending ≠ none ∧
      HostMoves (toldBusy 1 (.dstRead 0 0) State.reset) (.dstRead 0 0) [] ∧ 0 + 0 ≤ 2 ^ 32) :=
  ⟨⟨by unfold State.Inv; decide, rfl, hostMoves_toldBusy _ _⟩, ⟨by unfold State.Inv; decide, hostMoves_toldBusy _ _⟩,
    ⟨by decide, by decide, by decide, hostMoves_toldBusy _ _⟩, by decide, hostMoves_toldBusy _ _, by decide⟩

theorem witness_register_write_reads_back :
    HostMoves (told (.regWrite 32 (regOffset .width) 0xFFFFFFFF) State.reset) (.regWrite 32 (regOffset .width) 0xFFFFFFFF) [] ∧
    (told (.regWrite 32 (regOffset .width) 0xFFFFFFFF) State.reset).pending = none ∧ .width ∈ hostWritable ∧
    RegName.width ≠ .cmd := ⟨hostMoves_told _, rfl, by decide, by decide⟩

/-- A write of the last byte of each space. -/
theorem witness_host_stores_its_bytes :
    (HostMoves (told (.srcWrite 0xFFFFFFFF [7]) State.reset) (.srcWrite 0xFFFFFFFF [7]) [] ∧
      (told (.srcWrite 0xFFFFFFFF [7]) State.reset).pending = none ∧
      memWf (told (.srcWrite 0xFFFFFFFF [7]) State.reset).src = true ∧ 0xFFFFFFFF + [(7 : Byte)].length ≤ 2 ^ 32) ∧
    (HostMoves (told (.dstWrite 0xFFFFFFFF [7]) State.reset) (.dstWrite 0xFFFFFFFF [7]) [] ∧
      (told (.dstWrite 0xFFFFFFFF [7]) State.reset).pending = none ∧
      memWf (told (.dstWrite 0xFFFFFFFF [7]) State.reset).dst = true ∧ 0xFFFFFFFF + [(7 : Byte)].length ≤ 2 ^ 32) :=
  ⟨⟨hostMoves_told _, rfl, rfl, by decide⟩, hostMoves_told _, rfl, rfl, by decide⟩

theorem witness_poll_reads_until_idle :
    (HostMoves (told .poll State.reset) .poll [] ∧ (told .poll State.reset).pending = none) ∧
    (HostMoves (toldBusy 1 .poll State.reset) .poll [] ∧ (toldBusy 1 .poll State.reset).pending ≠ none) :=
  ⟨⟨hostMoves_told _, rfl⟩, hostMoves_toldBusy _ _, by decide⟩

/-- One byte past the last offset, for each kind of access. -/
theorem witness_host_access_past_the_space :
    (HostMoves (told (.srcWrite 0xFFFFFFFF [7, 7]) State.reset) (.srcWrite 0xFFFFFFFF [7, 7]) [] ∧
      2 ^ 32 < 0xFFFFFFFF + [(7 : Byte), 7].length) ∧
    HostMoves (told (.dstWrite (2 ^ 32) [7]) State.reset) (.dstWrite (2 ^ 32) [7]) [] ∧
    (HostMoves (told (.dstRead (2 ^ 32) 1) State.reset) (.dstRead (2 ^ 32) 1) [] ∧ 2 ^ 32 < 2 ^ 32 + 1) :=
  ⟨⟨hostMoves_told _, by decide⟩, hostMoves_told _, hostMoves_told _, by decide⟩

/-- A reset of an idle block, of a busy one and of one whose run has the mark. -/
theorem witness_reset_state :
    ((told .reset State.reset).script = [.reset] ∧ (told .reset State.reset).pending = none) ∧
    ((toldBusy 5 .reset State.reset).script = [.reset] ∧ (toldBusy 5 .reset State.reset).delay ≠ 0) ∧
    ((marked [.reset]).script = [.reset] ∧ (marked [.reset]).violation = true) := by decide

/-- An abandoned ASSEMBLE that could have written 48 bytes, and an abandoned DECODE. -/
theorem witness_reset_abandons :
    (let s := toldBusy 5 .reset (imageState 4 4 48 [redBlue])
     HostMoves s .reset [] ∧ s.pending = some 5 ∧ memWf s.dst = true ∧ decode 5 = .ok .assembleRgb ∧
       min (outputLength s .rgb) s.regs.dstLen.toNat = 48) ∧
    (let s := toldBusy 4 .reset State.reset
     HostMoves s .reset [] ∧ s.pending = some 4 ∧ memWf s.dst = true ∧ decode 4 = .ok .decodeDxt1) :=
  ⟨⟨⟨rfl, rfl, .inr Nat.one_ne_zero⟩, rfl, rfl, by decide, by decide⟩, hostMoves_toldBusy _ _, rfl, rfl, by decide⟩

theorem witness_ended_run : State.reset.violation = false ∧ State.reset.ended = true := by decide

/-- A polling host whose command completes after three more reads, and one whose command completes at once. -/
theorem witness_polling :
    (let s := { State.reset.issueAfter 1 3 with script := [.poll] }
     s.violation = false ∧ s.pending = some 1 ∧ s.script = [.poll] ∧ s.delay = 3) ∧
    (let s := { State.reset.issueAfter 1 0 with script := [.poll] }
     s.violation = false ∧ s.pending = some 1 ∧ s.script = [.poll] ∧ s.delay = 0) := by decide

theorem witness_parameters_are_fixed : ∃ t, step State.reset = .next t := ⟨_, rfl⟩

/-- The invariant holds where the engine completes, where the host moves and where a reset clears a busy block. -/
theorem witness_every_step_keeps_the_invariant :
    ((issued 0x05 (imageState 4 4 48 [redBlue])).Inv ∧ ∃ t, step (issued 0x05 (imageState 4 4 48 [redBlue])) = .next t) ∧
    ((told (.regWrite 32 0 1) State.reset).Inv ∧ ∃ t, step (told (.regWrite 32 0 1) State.reset) = .next t) ∧
    ((toldBusy 5 .reset State.reset).Inv ∧ ∃ t, step (toldBusy 5 .reset State.reset) = .next t) :=
  ⟨⟨by unfold State.Inv; decide, _, rfl⟩, ⟨by unfold State.Inv; decide, _, rfl⟩, by unfold State.Inv; decide, _, rfl⟩

end Sys2Proof.Tests
end

section
/-! PROOF. The host actions that Laws/Ops.lean does not take apart, said once: the polling read and the accesses to SRC
and DST (spec/30_encoding.md R106, spec/70_reset_and_hazards.md R285, R288, R289). -/

namespace Sys2Proof.Machine

theorem inSpace_iff {off n : Nat} : inSpace off n = true ↔ off + n ≤ 2 ^ 32 := decide_eq_true_iff

/-- A polling read comes back to the poll while BUSY = 1, and else the host goes on. -/
theorem hostPoll_cases (s : State) :
    (s.busy = true ∧ hostPoll s = .next { s with script := .poll :: s.script }) ∨
    (s.busy = false ∧ hostPoll s = .next s) := by
  by_cases hb : s.busy = true
  · exact .inl ⟨hb, by rw [hostPoll, if_pos hb]⟩
  · exact .inr ⟨by simpa using hb, by rw [hostPoll, if_neg hb]⟩

/-- A host write of SRC: a violation while BUSY = 1, the bytes stored, or an access past the space. -/
theorem hostSrcWrite_cases (off : Nat) (bytes : List Byte) (s : State) :
    (s.busy = true ∧ hostSrcWrite off bytes s = .next s.violate) ∨
    (s.busy = false ∧ off + bytes.length ≤ 2 ^ 32 ∧
      hostSrcWrite off bytes s = .next { s with src := memStoreAll s.src off bytes }) ∨
    (s.busy = false ∧ 2 ^ 32 < off + bytes.length ∧ hostSrcWrite off bytes s = .fault .offsetOutOfSpace) := by
  by_cases hb : s.busy = true
  · exact .inl ⟨hb, by rw [hostSrcWrite, if_pos hb]⟩
  · have hidle : s.busy = false := by simpa using hb
    by_cases hin : inSpace off bytes.length = true
    · exact .inr (.inl ⟨hidle, inSpace_iff.mp hin, by rw [hostSrcWrite, if_neg hb, if_pos hin]⟩)
    · exact .inr (.inr ⟨hidle, by rw [inSpace_iff] at hin; omega, by rw [hostSrcWrite, if_neg hb, if_neg hin]⟩)

/-- A host write of DST: a violation while BUSY = 1, the bytes stored, or an access past the space. -/
theorem hostDstWrite_cases (off : Nat) (bytes : List Byte) (s : State) :
    (s.busy = true ∧ hostDstWrite off bytes s = .next s.violate) ∨
    (s.busy = false ∧ off + bytes.length ≤ 2 ^ 32 ∧
      hostDstWrite off bytes s = .next { s with dst := memStoreAll s.dst off bytes }) ∨
    (s.busy = false ∧ 2 ^ 32 < off + bytes.length ∧ hostDstWrite off bytes s = .fault .offsetOutOfSpace) := by
  by_cases hb : s.busy = true
  · exact .inl ⟨hb, by rw [hostDstWrite, if_pos hb]⟩
  · have hidle : s.busy = false := by simpa using hb
    by_cases hin : inSpace off bytes.length = true
    · exact .inr (.inl ⟨hidle, inSpace_iff.mp hin, by rw [hostDstWrite, if_neg hb, if_pos hin]⟩)
    · exact .inr (.inr ⟨hidle, by rw [inSpace_iff] at hin; omega, by rw [hostDstWrite, if_neg hb, if_neg hin]⟩)

/-- A host read of DST: free bytes while BUSY = 1, the stored bytes, or an access past the space. -/
theorem hostDstRead_cases (off n : Nat) (s : State) :
    (off + n ≤ 2 ^ 32 ∧ s.busy = true ∧
      hostDstRead off n s = .next ((s.draw n).record (.dst off (freeBytes s.draws n)))) ∨
    (off + n ≤ 2 ^ 32 ∧ s.busy = false ∧
      hostDstRead off n s = .next (s.record (.dst off (memSlice s.dst off n)))) ∨
    (2 ^ 32 < off + n ∧ hostDstRead off n s = .fault .offsetOutOfSpace) := by
  by_cases hin : inSpace off n = true
  · have hle := inSpace_iff.mp hin
    by_cases hb : s.busy = true
    · exact .inl ⟨hle, hb, by rw [hostDstRead, if_pos hin, if_pos hb]⟩
    · exact .inr (.inl ⟨hle, by simpa using hb, by rw [hostDstRead, if_pos hin, if_neg hb]⟩)
  · exact .inr (.inr ⟨by rw [inSpace_iff] at hin; omega, by rw [hostDstRead, if_neg hin]⟩)

end Sys2Proof.Machine
end

section
/-! PROOF. No step changes a parameter (spec/00_scope.md R6, spec/70_reset_and_hazards.md R280): the completions and errors
of the commands keep them, so do the host's actions and a reset, and `step_cases` says there is nothing else. -/

namespace Sys2Proof.Machine

/-! ## The commands -/

@[simp] theorem parseBlk_params (v : Variant) (s : State) : (parseBlk v s).params = s.params := by
  rcases parseBlk_cases v s with ⟨_, h⟩ | ⟨_, h⟩ <;> rw [h] <;> rfl

@[simp] theorem decodeImage_params (v : Variant) (s : State) : (decodeImage v s).params = s.params := by
  rcases decodeImage_cases v s with ⟨_, h⟩ | ⟨_, _, h⟩ | ⟨_, _, _, h⟩ | ⟨_, _, _, h⟩ <;> rw [h] <;> rfl

@[simp] theorem assemble_params (ch : Channels) (s : State) : (assemble ch s).params = s.params := by
  rcases assemble_cases ch s with ⟨_, h⟩ | ⟨_, _, h⟩ | ⟨_, _, h⟩ <;> rw [h] <;> rfl

theorem exec_params {i : Instr} {s t : State} (h : exec i s = .next t) : t.params = s.params := by
  cases i with
  | cvt565 | recon => cases h; rfl
  | parseblkDxt1 | parseblkDxt3 => cases h; exact parseBlk_params _ s
  | decodeDxt1 | decodeDxt3 => cases h; exact decodeImage_params _ s
  | assembleRgb | assembleRgba => cases h; exact assemble_params _ s

theorem engineStep_params {w : Word} {s t : State} (h : engineStep w s = .next t) : t.params = s.params := by
  rcases engineStep_cases w s with ⟨i, _, he⟩ | ⟨_, _, he⟩
  · exact exec_params (he.symm.trans h)
  · cases he.symm.trans h
    rfl

/-! ## The host -/

@[simp] theorem writeReg_params (s : State) (r : RegName) (v : Word) : (writeReg s r v).params = s.params := by
  cases r <;> rfl

theorem hostRegRead_params {bits off : Nat} {s t : State} (h : hostRegRead bits off s = .next t) :
    t.params = s.params := by
  rcases hostRegRead_cases bits off s with ⟨_, hr⟩ | ⟨_, _, _, _, hr⟩ | ⟨_, _, _, hr⟩ <;> cases hr.symm.trans h <;> rfl

theorem hostRegWrite_params {bits off : Nat} {v : Word} {s t : State} (h : hostRegWrite bits off v s = .next t) :
    t.params = s.params := by
  rcases hostRegWrite_cases bits off v s with ⟨_, hw⟩ | ⟨r, _, _, _, hw⟩
  · cases hw.symm.trans h
    rfl
  · cases hw.symm.trans h
    exact writeReg_params s r v

theorem hostPoll_params {s t : State} (h : hostPoll s = .next t) : t.params = s.params := by
  rcases hostPoll_cases s with ⟨_, hp⟩ | ⟨_, hp⟩ <;> cases hp.symm.trans h <;> rfl

theorem hostSrcWrite_params {off : Nat} {bytes : List Byte} {s t : State} (h : hostSrcWrite off bytes s = .next t) :
    t.params = s.params := by
  rcases hostSrcWrite_cases off bytes s with ⟨_, hw⟩ | ⟨_, _, hw⟩ | ⟨_, _, hw⟩ <;> cases hw.symm.trans h <;> rfl

theorem hostDstWrite_params {off : Nat} {bytes : List Byte} {s t : State} (h : hostDstWrite off bytes s = .next t) :
    t.params = s.params := by
  rcases hostDstWrite_cases off bytes s with ⟨_, hw⟩ | ⟨_, _, hw⟩ | ⟨_, _, hw⟩ <;> cases hw.symm.trans h <;> rfl

theorem hostDstRead_params {off n : Nat} {s t : State} (h : hostDstRead off n s = .next t) : t.params = s.params := by
  rcases hostDstRead_cases off n s with ⟨_, _, hr⟩ | ⟨_, _, hr⟩ | ⟨_, hr⟩ <;> cases hr.symm.trans h <;> rfl

theorem hostAct_params {a : HostAct} {s t : State} (h : hostAct a s = .next t) : t.params = s.params := by
  cases a with
  | regRead => exact hostRegRead_params h
  | regWrite => exact hostRegWrite_params h
  | poll => exact hostPoll_params h
  | srcWrite => exact hostSrcWrite_params h
  | dstRead => exact hostDstRead_params h
  | dstWrite => exact hostDstWrite_params h
  | reset => cases h; exact s.resetBlock_params

/-! ## The step -/

/-- Settles O57, by the cases of a step: the reset after a violation, the engine's completion, a host action, idle. -/
theorem parametersAreFixed : Obligations.ParametersAreFixed := by
  unfold Obligations.ParametersAreFixed
  intro s t h
  rcases step_cases s with ⟨_, _, hs⟩ | ⟨rest, _, _, hs⟩ | ⟨w, _, _, _, hs⟩ | ⟨a, rest, _, _, _, hs⟩ | ⟨_, _, _, hs⟩
  · cases hs.symm.trans h
  · cases hs.symm.trans h
    rfl
  · exact engineStep_params (hs.symm.trans h)
  · exact (hostAct_params (hs.symm.trans h)).trans (s.advance_params rest)
  · cases hs.symm.trans h
    rfl

end Sys2Proof.Machine
end

section
/-! PROOF. The register map (spec/10_state.md R21, R22): offsets and registers determine each other, and an access reaches a
register exactly when it is 32 bits wide at a register's offset. -/

namespace Sys2Proof.Machine

open Sys2Proof.Claims

/-! ## Offsets -/

theorem regOffset_mod (r : RegName) : regOffset r % 4 = 0 := by
  cases r with
  | tile k => simp only [regOffset]; omega
  | _ => rfl

/-- Every register lies at 0x54 or below, or in the sixteen words from 0x80 on. -/
theorem regOffset_bounds (r : RegName) : regOffset r < 0x58 ∨ 0x80 ≤ regOffset r ∧ regOffset r < 0xC0 := by
  cases r with
  | tile k => simp only [regOffset]; omega
  | _ => exact .inl (by decide)

@[simp] theorem regAt_regOffset (r : RegName) : regAt (regOffset r) = some r := by
  cases r with
  | tile k => revert k; decide
  | _ => rfl

theorem regOffset_of_regAt {off : Nat} {r : RegName} (h : regAt off = some r) : regOffset r = off := by
  simpa using List.find?_some h

theorem regAt_eq_none_iff {off : Nat} : regAt off = none ↔ ∀ r, regOffset r ≠ off := by
  constructor
  · rintro h r rfl
    simp at h
  · intro h
    cases hr : regAt off with
    | none => rfl
    | some r => exact absurd (regOffset_of_regAt hr) (h r)

/-! ## Access -/

theorem regAccess_eq_rw_iff {r : RegName} : regAccess r = .rw ↔ r ∈ hostWritable := by
  cases r with
  | tile k => simp [regAccess, hostWritable]
  | _ => decide

theorem regAccess_eq_ro_iff {r : RegName} : regAccess r = .ro ↔ r ∉ hostWritable := by
  rw [← regAccess_eq_rw_iff]
  cases regAccess r <;> decide

@[simp] theorem legalReg_regOffset (r : RegName) : legalReg 32 (regOffset r) = some r := by
  rw [legalReg, if_pos ⟨rfl, regOffset_mod r⟩, regAt_regOffset]

theorem regAt_of_legalReg {bits off : Nat} {r : RegName} (h : legalReg bits off = some r) : regAt off = some r := by
  unfold legalReg at h
  split at h
  · exact h
  · cases h

/-- An access reaches no register exactly when spec/10_state.md R22 forbids it. -/
theorem legalReg_eq_none_iff {bits off : Nat} : legalReg bits off = none ↔ BadAccess bits off := by
  unfold legalReg BadAccess
  by_cases hform : bits = 32 ∧ off % 4 = 0
  · rw [if_pos hform, regAt_eq_none_iff]
    simp [hform]
  · rw [if_neg hform]
    have : bits ≠ 32 ∨ off % 4 ≠ 0 := by omega
    tauto

/-! ## The map -/

@[simp] theorem imgInfo_eq (img : ImageStore) : imgInfo img = if img.variant = .noAlpha then 0 else 1 := by
  unfold imgInfo
  cases img.variant <;> decide

/-- Settles O44: both directions of the map, the gaps by the bounds of the offsets, and the value of each register. -/
theorem registerMapIsOneToOne : Obligations.RegisterMapIsOneToOne := by
  unfold Obligations.RegisterMapIsOneToOne
  refine ⟨by decide, by decide, fun k => regAt_regOffset (.tile k), regAt_regOffset, ?_, ?_,
    fun r => ⟨regAccess_eq_rw_iff.mpr, regAccess_eq_ro_iff.mpr⟩, ?_, ?_, ?_⟩
  · rintro off r h
    have hoff := regOffset_of_regAt h
    have hmod := regOffset_mod r
    have hbounds := regOffset_bounds r
    omega
  · intro off hgap
    refine regAt_eq_none_iff.mpr fun r hoff => ?_
    have hbounds := regOffset_bounds r
    omega
  · exact fun s => ⟨rfl, rfl, rfl, rfl, rfl, rfl, rfl, rfl, rfl, rfl, rfl⟩
  · exact fun s => ⟨rfl, rfl, rfl, rfl, rfl, rfl, fun _ => rfl⟩
  · intro s
    refine ⟨rfl, rfl, fun hv => ?_, fun hv => ?_, fun hlen => ?_⟩
    · simp [readReg, hv]
    · simp [readReg, hv]
    · rw [readReg, BitVec.toNat_ofNat, Nat.mod_eq_of_lt hlen]

end Sys2Proof.Machine
end

section
/-! PROOF. What a register reads as after a write (spec/10_state.md R21 to R29), and the value of `STATUS` (R24, R34). -/

namespace Sys2Proof.Machine

open Sys2Proof.Claims

/-! ## Reads after writes -/

@[simp] theorem readReg_advance (s : State) (rest : List HostAct) (r : RegName) :
    readReg (s.advance rest) r = readReg s r := by
  cases r <;> rfl

theorem readReg_violation (s : State) (b : Bool) (r : RegName) : readReg { s with violation := b } r = readReg s r := by
  cases r <;> rfl

/-- A register the host may write, `CMD` too, reads as the value written. -/
theorem readReg_writeReg_same {s : State} {r : RegName} (v : Word) (h : regAccess r = .rw) :
    readReg (writeReg s r v) r = v := by
  cases r <;> first | rfl | cases h

/-- A write of a register other than `CMD`, which issues, leaves what every other register reads as. -/
theorem readReg_writeReg_ne {s : State} {r r' : RegName} (v : Word) (hcmd : r ≠ .cmd) (hne : r' ≠ r) :
    readReg (writeReg s r v) r' = readReg s r' := by
  cases r with
  | cmd => exact absurd rfl hcmd
  | width | height | srcLen | dstLen | arg0 | blkCol | blkIdx | blkAlphaLo | blkAlphaHi =>
    cases r' <;> first | rfl | exact absurd rfl hne
  | _ => rfl

/-- A host write of a mapped RW register while BUSY = 0 is performed. -/
theorem hostRegWrite_idle {s : State} {r : RegName} (v : Word) (hrw : regAccess r = .rw) (hidle : s.pending = none) :
    hostRegWrite 32 (regOffset r) v s = .next (writeReg s r v) := by
  simp [hostRegWrite, hrw, hidle]

/-- Settles O49: the step is the register write, which `readReg_writeReg_same` and `readReg_writeReg_ne` read back. -/
theorem registerWriteReadsBack : Obligations.RegisterWriteReadsBack := by
  unfold Obligations.RegisterWriteReadsBack
  rintro s r v rest ⟨hclean, hscript, hturn⟩ hidle hr hcmd
  have hrw := regAccess_eq_rw_iff.mpr hr
  have hstep : step s = .next (writeReg (s.advance rest) r v) :=
    (step_host hclean hscript hturn).trans (hostRegWrite_idle v hrw hidle)
  have hframe := writeReg_eq_regs (s := s.advance rest) v hcmd
  refine ⟨_, hstep, readReg_writeReg_same v hrw, fun r' hne => ?_, ?_⟩
  · rw [readReg_writeReg_ne v hcmd hne, readReg_advance]
  · rw [hframe]
    exact ⟨rfl, rfl, rfl, hidle, hclean⟩

/-! ## STATUS -/

/-- The word of spec/10_state.md R24 as a sum of its fields. -/
theorem statusOf_toNat (busy done valid : Bool) (code : ErrCode) :
    (statusOf busy done valid code).toNat =
      busy.toNat + 2 * done.toNat + 4 * valid.toNat + 16 * (errNibble code).toNat := by
  cases code <;> (revert busy done valid; decide)

theorem readReg_status_toNat (s : State) :
    (readReg s .status).toNat =
      s.busy.toNat + 2 * s.done.toNat + 4 * s.img.valid.toNat + 16 * (errNibble s.err).toNat :=
  statusOf_toNat s.busy s.done s.img.valid s.err

theorem toNat_flag_cases (b : Bool) : b.toNat = 1 ∧ b = true ∨ b.toNat = 0 ∧ b = false := by
  cases b <;> decide

/-- Settles O10: the four fields of the sum are the flags and the code of the state. -/
theorem statusReadsItsFields : Obligations.StatusReadsItsFields := by
  unfold Obligations.StatusReadsItsFields
  intro s
  refine ⟨_, _, _, _, readReg_status_toNat s, ?_, toNat_flag_cases _, toNat_flag_cases _, ?_⟩
  · cases hp : s.pending <;> simp [State.busy, hp]
  · cases s.err <;> simp [errNibble]

/-- While a command is pending the invariant fixes `CMD` and the flags (spec/10_state.md R23, R24). -/
theorem inv_pending {s : State} {w : Word} (h : s.Inv) (hp : s.pending = some w) :
    s.regs.cmd = w ∧ s.done = false ∧ s.err = .ok := by
  obtain ⟨-, -, -, -, hstatus⟩ := h
  simpa [statusWf, hp, and_assoc] using hstatus

/-- Settles O11: the sum of the fields with what the invariant fixes. -/
theorem busyStatusWhilePending : Obligations.BusyStatusWhilePending := by
  unfold Obligations.BusyStatusWhilePending
  intro s w hinv hp
  obtain ⟨hcmd, hdone, herr⟩ := inv_pending hinv hp
  refine ⟨?_, hcmd⟩
  rw [readReg_status_toNat, State.busy_some s w hp, hdone, herr]
  rfl

end Sys2Proof.Machine
end

section
/-! PROOF. The frame of the commands: which result register each may write (spec/10_state.md R28 to R33), and that none sets
the violation mark (R35). -/

namespace Sys2Proof.Machine

/-! ## The result registers -/

/-- PARSEBLK leaves every result but the block record and the request it could not meet. -/
theorem parseBlk_leaves_results (v : Variant) (s : State) :
    (parseBlk v s).regs.res = s.regs.res ∧ (parseBlk v s).regs.tile = s.regs.tile ∧
      (parseBlk v s).regs.outLen = s.regs.outLen ∧ (parseBlk v s).img = s.img ∧
      (parseBlk v s).regs.errPixLo = s.regs.errPixLo ∧ (parseBlk v s).regs.errPixHi = s.regs.errPixHi := by
  rcases parseBlk_cases v s with ⟨_, h⟩ | ⟨_, h⟩ <;> rw [h] <;> exact ⟨rfl, rfl, rfl, rfl, rfl, rfl⟩

/-- DECODE leaves every result but the image store and the error information. -/
theorem decodeImage_leaves_results (v : Variant) (s : State) :
    (decodeImage v s).regs.res = s.regs.res ∧ (decodeImage v s).regs.tile = s.regs.tile ∧
      (decodeImage v s).regs.outLen = s.regs.outLen ∧
      (decodeImage v s).regs.blkCol = s.regs.blkCol ∧ (decodeImage v s).regs.blkIdx = s.regs.blkIdx ∧
      (decodeImage v s).regs.blkAlphaLo = s.regs.blkAlphaLo ∧
      (decodeImage v s).regs.blkAlphaHi = s.regs.blkAlphaHi := by
  rcases decodeImage_cases v s with ⟨_, h⟩ | ⟨_, _, h⟩ | ⟨_, _, _, h⟩ | ⟨_, _, _, h⟩ <;> rw [h] <;>
    exact ⟨rfl, rfl, rfl, rfl, rfl, rfl, rfl⟩

/-- ASSEMBLE leaves every result but `OUT_LEN` and the request it could not meet. -/
theorem assemble_leaves_results (ch : Channels) (s : State) :
    (assemble ch s).regs.res = s.regs.res ∧ (assemble ch s).regs.tile = s.regs.tile ∧
      (assemble ch s).img = s.img ∧
      (assemble ch s).regs.errPixLo = s.regs.errPixLo ∧ (assemble ch s).regs.errPixHi = s.regs.errPixHi ∧
      (assemble ch s).regs.blkCol = s.regs.blkCol ∧ (assemble ch s).regs.blkIdx = s.regs.blkIdx ∧
      (assemble ch s).regs.blkAlphaLo = s.regs.blkAlphaLo ∧ (assemble ch s).regs.blkAlphaHi = s.regs.blkAlphaHi := by
  rcases assemble_cases ch s with ⟨_, h⟩ | ⟨_, _, h⟩ | ⟨_, _, h⟩ <;> rw [h] <;>
    exact ⟨rfl, rfl, rfl, rfl, rfl, rfl, rfl, rfl, rfl⟩

/-- Settles O38, by the commands: each kind leaves the results that are not its own. -/
theorem resultsHaveOneWriter : Obligations.ResultsHaveOneWriter := by
  unfold Obligations.ResultsHaveOneWriter
  intro i s t h
  cases i with
  | cvt565 | recon => cases h; simp
  | parseblkDxt1 | parseblkDxt3 => cases h; simp [parseBlk_leaves_results]
  | decodeDxt1 | decodeDxt3 => cases h; simp [decodeImage_leaves_results]
  | assembleRgb | assembleRgba => cases h; simp [assemble_leaves_results]

/-! ## The violation mark -/

@[simp] theorem parseBlk_violation (v : Variant) (s : State) : (parseBlk v s).violation = s.violation := by
  rcases parseBlk_cases v s with ⟨_, h⟩ | ⟨_, h⟩ <;> rw [h] <;> rfl

@[simp] theorem decodeImage_violation (v : Variant) (s : State) : (decodeImage v s).violation = s.violation := by
  rcases decodeImage_cases v s with ⟨_, h⟩ | ⟨_, _, h⟩ | ⟨_, _, _, h⟩ | ⟨_, _, _, h⟩ <;> rw [h] <;> rfl

@[simp] theorem assemble_violation (ch : Channels) (s : State) : (assemble ch s).violation = s.violation := by
  rcases assemble_cases ch s with ⟨_, h⟩ | ⟨_, _, h⟩ | ⟨_, _, h⟩ <;> rw [h] <;> rfl

theorem exec_violation {i : Instr} {s t : State} (h : exec i s = .next t) : t.violation = s.violation := by
  cases i with
  | cvt565 | recon => cases h; rfl
  | parseblkDxt1 | parseblkDxt3 => cases h; exact parseBlk_violation _ s
  | decodeDxt1 | decodeDxt3 => cases h; exact decodeImage_violation _ s
  | assembleRgb | assembleRgba => cases h; exact assemble_violation _ s

theorem engineStep_violation {w : Word} {s t : State} (h : engineStep w s = .next t) : t.violation = s.violation := by
  rcases engineStep_cases w s with ⟨i, _, he⟩ | ⟨_, _, he⟩
  · exact exec_violation (he.symm.trans h)
  · cases he.symm.trans h
    rfl

end Sys2Proof.Machine
end

section
/-! PROOF. The violation mark (spec/10_state.md R35): each action spec/70_reset_and_hazards.md R285 forbids sets it, and
nothing clears it. -/

namespace Sys2Proof.Machine

open Sys2Proof.Claims

theorem busy_iff {s : State} : s.busy = true ↔ s.pending ≠ none := by
  simp [State.busy, Option.isSome_iff_ne_none]

theorem hostRegRead_bad {bits off : Nat} (s : State) (h : BadAccess bits off) :
    hostRegRead bits off s = .next s.violate := by
  rw [hostRegRead, legalReg_eq_none_iff.mpr h]

/-- A register write is a violation when the access reaches no register, the register is RO, or BUSY = 1. -/
theorem hostRegWrite_bad {bits off : Nat} {v : Word} {s : State} (h : Forbidden s (.regWrite bits off v)) :
    hostRegWrite bits off v s = .next s.violate := by
  rcases hostRegWrite_cases bits off v s with ⟨_, hw⟩ | ⟨r, hlegal, hrw, hidle, _⟩
  · exact hw
  · exfalso
    rcases h with hbad | ⟨r', rfl, hro⟩ | hbusy
    · simp [legalReg_eq_none_iff.mpr hbad] at hlegal
    · have hreg : r' = r := by simpa using regAt_of_legalReg hlegal
      exact hro (hreg ▸ regAccess_eq_rw_iff.mp hrw)
    · simp [busy_iff.mpr hbusy] at hidle

/-- A forbidden action sets the mark, and nothing else. -/
theorem hostAct_forbidden {a : HostAct} {s : State} (h : Forbidden s a) : hostAct a s = .next s.violate := by
  cases a with
  | regRead bits off => exact hostRegRead_bad s h
  | regWrite bits off v => exact hostRegWrite_bad h
  | srcWrite off bytes => rw [hostAct, hostSrcWrite, if_pos (busy_iff.mpr h)]
  | dstWrite off bytes => rw [hostAct, hostDstWrite, if_pos (busy_iff.mpr h)]
  | poll | dstRead | reset => exact h.elim

/-- Whether an action is forbidden depends on the pending command alone. -/
theorem forbidden_advance {s : State} {rest : List HostAct} {a : HostAct} :
    Forbidden (s.advance rest) a ↔ Forbidden s a := by
  cases a <;> rfl

/-- Settles O46: the forbidden actions by `hostAct_forbidden`, a marked run by `step_marked`, the engine by the frame of the
commands, and the registers by `readReg_violation`. -/
theorem violationMarkSticks : Obligations.ViolationMarkSticks := by
  unfold Obligations.ViolationMarkSticks
  refine ⟨?_, ?_, ?_, readReg_violation⟩
  · rintro s a rest ⟨hclean, hscript, hturn⟩ hbad
    exact ⟨_, (step_host hclean hscript hturn).trans (hostAct_forbidden (forbidden_advance.mpr hbad)), rfl⟩
  · intro s t hstep hmark
    rcases step_marked hmark with ⟨rest, _, hreset⟩ | ⟨_, hfault⟩
    · cases hreset.symm.trans hstep
      exact hmark
    · cases hfault.symm.trans hstep
  · rintro s w t ⟨hclean, hp, hturn⟩ hstep
    exact (engineStep_violation ((step_engine hclean hp hturn).symm.trans hstep)).trans hclean

end Sys2Proof.Machine
end

section
/-! PROOF. Every step keeps the invariant of `State.Inv`: the commands, the host's actions and reset, each by what it does to
the byte spaces, the image store, and the pending command with its flags. -/

namespace Sys2Proof.Machine

/-! ## The commands -/

/-- An error keeps the invariant, as a completion does, whatever it records. -/
theorem inv_raise {s : State} (c : ErrCode) (r : Regs) (hsrc : memWf s.src = true) (hdst : memWf s.dst = true)
    (himg : storeWf s.img = true) (hcap : capacityWf s.params s.img = true) : (s.raise c r).Inv :=
  inv_complete (s := { s with regs := r }) c hsrc hdst himg hcap

theorem parseBlk_inv (v : Variant) {s : State} (h : s.Inv) : (parseBlk v s).Inv := by
  obtain ⟨hsrc, hdst, himg, hcap, -⟩ := h
  rcases parseBlk_cases v s with ⟨_, he⟩ | ⟨_, he⟩ <;> rw [he]
  · exact inv_raise _ _ hsrc hdst himg hcap
  · exact inv_complete _ hsrc hdst himg hcap

theorem blockFits_parseBlock (v : Variant) (src : List Host.Cell) (o : Nat) :
    blockFits v (parseBlock v src o) = true := by
  cases v <;> rfl

/-- The form of a store that holds an image (spec/45_decode.md R224, R226, R227). -/
theorem storeWf_iff_of_valid {img : ImageStore} (hv : img.valid = true) :
    storeWf img = true ↔ img.blocks.length = blockCount img.width.toNat img.height.toNat ∧
      ¬(img.width = 0 ∧ img.height = 0) ∧ img.blocks.length * blockSize img.variant < 2 ^ 32 ∧
      ∀ b ∈ img.blocks, blockFits img.variant b = true := by
  simp only [storeWf, hv, if_true, Bool.and_eq_true, decide_eq_true_eq, List.all_eq_true, and_assoc]

/-- The store a DECODE fills holds its grid (spec/45_decode.md R221, R226, R227). -/
theorem storeWf_decodedImage {v : Variant} {s : State} (hdim : ¬(s.regs.width = 0 ∧ s.regs.height = 0))
    (hlen : requiredBytes v s.regs.width.toNat s.regs.height.toNat ≤ s.regs.srcLen.toNat) :
    storeWf (decodedImage v s) = true := by
  have hcount : (decodedImage v s).blocks.length = blockCount s.regs.width.toNat s.regs.height.toNat :=
    parseGrid_length _ _ _
  have hsize : requiredBytes v s.regs.width.toNat s.regs.height.toNat < 2 ^ 32 :=
    Nat.lt_of_le_of_lt hlen s.regs.srcLen.isLt
  refine (storeWf_iff_of_valid rfl).mpr ⟨hcount, hdim, hcount ▸ hsize, fun b hb => ?_⟩
  obtain ⟨k, -, rfl⟩ := List.mem_map.mp hb
  exact blockFits_parseBlock v s.src _

theorem decodeImage_inv (v : Variant) {s : State} (h : s.Inv) : (decodeImage v s).Inv := by
  obtain ⟨hsrc, hdst, -, -, -⟩ := h
  rcases decodeImage_cases v s with ⟨_, he⟩ | ⟨_, _, he⟩ | ⟨_, _, _, he⟩ | ⟨hdim, hlen, hfree, he⟩ <;> rw [he]
  · exact inv_complete _ hsrc hdst storeWf_empty (capacityWf_empty _)
  · exact inv_raise _ _ hsrc hdst storeWf_empty (capacityWf_empty _)
  · exact inv_raise _ _ hsrc hdst storeWf_empty (capacityWf_empty _)
  · refine inv_complete _ hsrc hdst (storeWf_decodedImage hdim hlen) ?_
    simp [capacityWf, decodedImage, hfree]

theorem assemble_inv (ch : Channels) {s : State} (h : s.Inv) : (assemble ch s).Inv := by
  obtain ⟨hsrc, hdst, himg, hcap, -⟩ := h
  rcases assemble_cases ch s with ⟨_, he⟩ | ⟨_, _, he⟩ | ⟨_, hroom, he⟩ <;> rw [he]
  · exact inv_raise _ _ hsrc hdst himg hcap
  · exact inv_raise _ _ hsrc hdst himg hcap
  · have hdstLen := s.regs.dstLen.isLt
    refine inv_complete _ hsrc (memWf_memStoreAll hdst ?_) himg hcap
    rw [imageBytes_length]
    omega

theorem exec_inv {i : Instr} {s t : State} (h : s.Inv) (he : exec i s = .next t) : t.Inv := by
  cases i with
  | cvt565 | recon =>
    cases he
    obtain ⟨hsrc, hdst, himg, hcap, -⟩ := h
    exact inv_complete _ hsrc hdst himg hcap
  | parseblkDxt1 | parseblkDxt3 => cases he; exact parseBlk_inv _ h
  | decodeDxt1 | decodeDxt3 => cases he; exact decodeImage_inv _ h
  | assembleRgb | assembleRgba => cases he; exact assemble_inv _ h

theorem engineStep_inv {w : Word} {s t : State} (h : s.Inv) (he : engineStep w s = .next t) : t.Inv := by
  rcases engineStep_cases w s with ⟨i, _, hw⟩ | ⟨_, _, hw⟩
  · exact exec_inv h (hw.symm.trans he)
  · cases hw.symm.trans he
    obtain ⟨hsrc, hdst, himg, hcap, -⟩ := h
    exact inv_complete _ hsrc hdst himg hcap

/-! ## The host -/

theorem inv_advance {s : State} (rest : List HostAct) (h : s.Inv) : (s.advance rest).Inv :=
  inv_congr h rfl rfl rfl rfl rfl rfl rfl rfl

theorem inv_violate {s : State} (h : s.Inv) : s.violate.Inv := inv_congr h rfl rfl rfl rfl rfl rfl rfl rfl

theorem inv_record {s : State} (e : TraceEntry) (h : s.Inv) : (s.record e).Inv :=
  inv_congr h rfl rfl rfl rfl rfl rfl rfl rfl

theorem inv_draw {s : State} (n : Nat) (h : s.Inv) : (s.draw n).Inv := inv_congr h rfl rfl rfl rfl rfl rfl rfl rfl

theorem inv_memStoreAll_src {s : State} {off : Nat} {bytes : List Byte} (h : s.Inv)
    (hin : off + bytes.length ≤ 2 ^ 32) : ({ s with src := memStoreAll s.src off bytes } : State).Inv := by
  obtain ⟨hsrc, hrest⟩ := h
  exact ⟨memWf_memStoreAll hsrc hin, hrest⟩

theorem inv_memStoreAll_dst {s : State} {off : Nat} {bytes : List Byte} (h : s.Inv)
    (hin : off + bytes.length ≤ 2 ^ 32) : ({ s with dst := memStoreAll s.dst off bytes } : State).Inv := by
  obtain ⟨hsrc, hdst, hrest⟩ := h
  exact ⟨hsrc, memWf_memStoreAll hdst hin, hrest⟩

/-- A write of `CMD` issues, and any other leaves `CMD`, as the pending command needs. -/
theorem writeReg_inv {s : State} (r : RegName) (v : Word) (h : s.Inv) : (writeReg s r v).Inv := by
  by_cases hcmd : r = .cmd
  · subst hcmd
    exact inv_issue v h
  · have hkeep : (writeReg s r v).regs.cmd = s.regs.cmd := readReg_writeReg_ne (r' := .cmd) v hcmd (Ne.symm hcmd)
    rw [writeReg_eq_regs v hcmd]
    exact inv_congr h rfl rfl rfl rfl rfl hkeep rfl rfl

/-- What a reset may leave free in DST lies below `DST_LEN` (spec/70_reset_and_hazards.md R281). -/
theorem abandonedBytes_le_dstLen (s : State) : abandonedBytes s ≤ s.regs.dstLen.toNat := by
  unfold abandonedBytes
  split
  · exact Nat.zero_le _
  · split
    · exact Nat.zero_le _
    · split
      · exact Nat.zero_le _
      · exact Nat.min_le_right _ _

theorem resetBlock_inv {s : State} (h : s.Inv) : s.resetBlock.Inv := by
  obtain ⟨hsrc, hdst, -⟩ := h
  have hfew := abandonedBytes_le_dstLen s
  have hdstLen := s.regs.dstLen.isLt
  refine ⟨hsrc, memWf_memStoreAll hdst ?_, storeWf_empty, capacityWf_empty _, rfl⟩
  rw [freeBytes_length]
  omega

theorem hostRegRead_inv {bits off : Nat} {s t : State} (h : s.Inv) (hs : hostRegRead bits off s = .next t) : t.Inv := by
  rcases hostRegRead_cases bits off s with ⟨_, hr⟩ | ⟨_, _, _, _, hr⟩ | ⟨_, _, _, hr⟩ <;> cases hr.symm.trans hs
  · exact inv_violate h
  · exact inv_record _ (inv_draw _ h)
  · exact inv_record _ h

theorem hostRegWrite_inv {bits off : Nat} {v : Word} {s t : State} (h : s.Inv)
    (hs : hostRegWrite bits off v s = .next t) : t.Inv := by
  rcases hostRegWrite_cases bits off v s with ⟨_, hw⟩ | ⟨r, _, _, _, hw⟩ <;> cases hw.symm.trans hs
  · exact inv_violate h
  · exact writeReg_inv r v h

theorem hostPoll_inv {s t : State} (h : s.Inv) (hs : hostPoll s = .next t) : t.Inv := by
  rcases hostPoll_cases s with ⟨_, hp⟩ | ⟨_, hp⟩ <;> cases hp.symm.trans hs
  · exact inv_congr h rfl rfl rfl rfl rfl rfl rfl rfl
  · exact h

theorem hostSrcWrite_inv {off : Nat} {bytes : List Byte} {s t : State} (h : s.Inv)
    (hs : hostSrcWrite off bytes s = .next t) : t.Inv := by
  rcases hostSrcWrite_cases off bytes s with ⟨_, hw⟩ | ⟨_, hin, hw⟩ | ⟨_, _, hw⟩ <;> cases hw.symm.trans hs
  · exact inv_violate h
  · exact inv_memStoreAll_src h hin

theorem hostDstWrite_inv {off : Nat} {bytes : List Byte} {s t : State} (h : s.Inv)
    (hs : hostDstWrite off bytes s = .next t) : t.Inv := by
  rcases hostDstWrite_cases off bytes s with ⟨_, hw⟩ | ⟨_, hin, hw⟩ | ⟨_, _, hw⟩ <;> cases hw.symm.trans hs
  · exact inv_violate h
  · exact inv_memStoreAll_dst h hin

theorem hostDstRead_inv {off n : Nat} {s t : State} (h : s.Inv) (hs : hostDstRead off n s = .next t) : t.Inv := by
  rcases hostDstRead_cases off n s with ⟨_, _, hr⟩ | ⟨_, _, hr⟩ | ⟨_, hr⟩ <;> cases hr.symm.trans hs
  · exact inv_record _ (inv_draw _ h)
  · exact inv_record _ h

theorem hostAct_inv {a : HostAct} {s t : State} (h : s.Inv) (hs : hostAct a s = .next t) : t.Inv := by
  cases a with
  | regRead => exact hostRegRead_inv h hs
  | regWrite => exact hostRegWrite_inv h hs
  | poll => exact hostPoll_inv h hs
  | srcWrite => exact hostSrcWrite_inv h hs
  | dstRead => exact hostDstRead_inv h hs
  | dstWrite => exact hostDstWrite_inv h hs
  | reset => cases hs; exact resetBlock_inv h

/-! ## The step -/

/-- Settles O59, by the cases of a step: the reset after a violation, the engine's completion, a host action, idle. -/
theorem everyStepKeepsTheInvariant : Obligations.EveryStepKeepsTheInvariant := by
  unfold Obligations.EveryStepKeepsTheInvariant
  intro s t hinv h
  rcases step_cases s with ⟨_, _, hs⟩ | ⟨rest, _, _, hs⟩ | ⟨w, _, _, _, hs⟩ | ⟨a, rest, _, _, _, hs⟩ | ⟨_, _, _, hs⟩
  · cases hs.symm.trans h
  · cases hs.symm.trans h
    exact resetBlock_inv (inv_advance rest hinv)
  · exact engineStep_inv hinv (hs.symm.trans h)
  · exact hostAct_inv (inv_advance rest hinv) (hs.symm.trans h)
  · cases hs.symm.trans h
    exact hinv

end Sys2Proof.Machine
end

section
/-! PROOF. The frame of the commands towards the host (spec/20_memory.md R60, spec/10_state.md R25 to R27): what a command
reads as its operands, and what belongs to the host, stays. -/

namespace Sys2Proof.Machine

/-- The operands a command reads, the parameters, and the host's own progress are as before. -/
structure HostSideKept (s t : State) : Prop where
  src : t.src = s.src
  params : t.params = s.params
  violation : t.violation = s.violation
  script : t.script = s.script
  trace : t.trace = s.trace
  delay : t.delay = s.delay
  draws : t.draws = s.draws
  cmd : t.regs.cmd = s.regs.cmd
  width : t.regs.width = s.regs.width
  height : t.regs.height = s.regs.height
  srcLen : t.regs.srcLen = s.regs.srcLen
  dstLen : t.regs.dstLen = s.regs.dstLen
  arg0 : t.regs.arg0 = s.regs.arg0

theorem parseBlk_hostSideKept (v : Variant) (s : State) : HostSideKept s (parseBlk v s) := by
  rcases parseBlk_cases v s with ⟨_, h⟩ | ⟨_, h⟩ <;> rw [h] <;> constructor <;> rfl

theorem decodeImage_hostSideKept (v : Variant) (s : State) : HostSideKept s (decodeImage v s) := by
  rcases decodeImage_cases v s with ⟨_, h⟩ | ⟨_, _, h⟩ | ⟨_, _, _, h⟩ | ⟨_, _, _, h⟩ <;> rw [h] <;> constructor <;> rfl

theorem assemble_hostSideKept (ch : Channels) (s : State) : HostSideKept s (assemble ch s) := by
  rcases assemble_cases ch s with ⟨_, h⟩ | ⟨_, _, h⟩ | ⟨_, _, h⟩ <;> rw [h] <;> constructor <;> rfl

theorem exec_hostSideKept {i : Instr} {s t : State} (h : exec i s = .next t) : HostSideKept s t := by
  cases i with
  | cvt565 | recon => cases h; constructor <;> simp
  | parseblkDxt1 | parseblkDxt3 => cases h; exact parseBlk_hostSideKept _ s
  | decodeDxt1 | decodeDxt3 => cases h; exact decodeImage_hostSideKept _ s
  | assembleRgb | assembleRgba => cases h; exact assemble_hostSideKept _ s

/-- Settles O36: the frame `exec_hostSideKept`, field by field. -/
theorem commandsLeaveTheHostSide : Obligations.CommandsLeaveTheHostSide := by
  unfold Obligations.CommandsLeaveTheHostSide
  intro i s t h
  have hk := exec_hostSideKept h
  exact ⟨hk.src, hk.params, hk.violation, hk.script, hk.trace, hk.delay, hk.draws, hk.cmd, hk.width, hk.height,
    hk.srcLen, hk.dstLen, hk.arg0⟩

end Sys2Proof.Machine
end

section
/-! PROOF. The frame of DST (spec/20_memory.md R61): only an ASSEMBLE that succeeds writes it, from offset 0 to `out_len`,
which is then at most `DST_LEN` (spec/44_image_assembler.md R194, R196). -/

namespace Sys2Proof.Machine

open Sys2Proof.Claims

/-! ## The commands that leave DST -/

@[simp] theorem parseBlk_dst (v : Variant) (s : State) : (parseBlk v s).dst = s.dst := by
  rcases parseBlk_cases v s with ⟨_, h⟩ | ⟨_, h⟩ <;> rw [h] <;> rfl

@[simp] theorem decodeImage_dst (v : Variant) (s : State) : (decodeImage v s).dst = s.dst := by
  rcases decodeImage_cases v s with ⟨_, h⟩ | ⟨_, _, h⟩ | ⟨_, _, _, h⟩ | ⟨_, _, _, h⟩ <;> rw [h] <;> rfl

theorem destChannels_eq_none_iff {i : Instr} : destChannels i = none ↔ i ≠ .assembleRgb ∧ i ≠ .assembleRgba := by
  cases i <;> decide

theorem exec_dst_of_destChannels_none {i : Instr} {s t : State} (hi : destChannels i = none) (h : exec i s = .next t) :
    t.dst = s.dst := by
  cases i with
  | cvt565 | recon => cases h; simp
  | parseblkDxt1 | parseblkDxt3 => cases h; exact parseBlk_dst _ s
  | decodeDxt1 | decodeDxt3 => cases h; exact decodeImage_dst _ s
  | assembleRgb | assembleRgba => cases hi

/-! ## ASSEMBLE -/

theorem exec_assembleCmd (ch : Channels) (s : State) : exec (assembleCmd ch) s = .next (assemble ch s) := by
  cases ch <;> rfl

/-- A command has a channel count exactly when it is the ASSEMBLE of that count. -/
theorem destChannels_eq_some_iff {i : Instr} {ch : Channels} : destChannels i = some ch ↔ i = assembleCmd ch := by
  cases i <;> cases ch <;> decide

theorem outWidth_eq_outputWidth (s : State) : outWidth s.params s.img = outputWidth s := by
  unfold outWidth outputWidth outDim
  cases s.params.edgePolicy <;> rfl

theorem outHeight_eq_outputHeight (s : State) : outHeight s.params s.img = outputHeight s := by
  unfold outHeight outputHeight outDim
  cases s.params.edgePolicy <;> rfl

theorem channelCount_eq_bytesPerPixel (ch : Channels) : channelCount ch = bytesPerPixel ch := by
  cases ch <;> rfl

/-- The model's `out_len` is the one of the statements (spec/44_image_assembler.md R192, R195). -/
theorem outLen_eq_outputLength (ch : Channels) (s : State) : outLen s.params s.img ch = outputLength s ch := by
  rw [outLen, outputLength, outWidth_eq_outputWidth, outHeight_eq_outputHeight, channelCount_eq_bytesPerPixel]

/-- An ASSEMBLE fails and leaves DST, or stores its output, which fits in `DST_LEN`. -/
theorem assemble_dst_cases (ch : Channels) (s : State) :
    ((assemble ch s).err ≠ .ok ∧ (assemble ch s).dst = s.dst) ∨
    ((assemble ch s).err = .ok ∧ outLen s.params s.img ch ≤ s.regs.dstLen.toNat ∧
      (assemble ch s).dst = memStoreAll s.dst 0 (imageBytes s.params s.img ch)) := by
  rcases assemble_cases ch s with ⟨_, h⟩ | ⟨_, _, h⟩ | ⟨_, hfits, h⟩ <;> rw [h]
  · exact .inl ⟨nofun, rfl⟩
  · exact .inl ⟨nofun, rfl⟩
  · exact .inr ⟨rfl, hfits, rfl⟩

/-- An ASSEMBLE writes no byte at or past `out_len`, and none when it fails. -/
theorem memByte_assemble_dst {ch : Channels} {s : State} {off : Nat} (hm : memWf s.dst = true)
    (h : outLen s.params s.img ch ≤ off ∨ (assemble ch s).err ≠ .ok) :
    memByte (assemble ch s).dst off = memByte s.dst off := by
  rcases assemble_dst_cases ch s with ⟨_, hdst⟩ | ⟨hok, hfits, hdst⟩
  · rw [hdst]
  · have hpast : outLen s.params s.img ch ≤ off := h.resolve_right (not_not_intro hok)
    have hlen := s.regs.dstLen.isLt
    rw [hdst, memByte_memStoreAll_outside hm]
    · rw [imageBytes_length]; omega
    · rw [imageBytes_length]; omega

/-- An ASSEMBLE writes no byte at or past `DST_LEN`: when it succeeds, `out_len` is at most that. -/
theorem memByte_assemble_dst_of_dstLen_le {ch : Channels} {s : State} {off : Nat} (hm : memWf s.dst = true)
    (hoff : s.regs.dstLen.toNat ≤ off) : memByte (assemble ch s).dst off = memByte s.dst off := by
  rcases assemble_dst_cases ch s with ⟨herr, _⟩ | ⟨_, hfits, _⟩
  · exact memByte_assemble_dst hm (.inr herr)
  · exact memByte_assemble_dst hm (.inl (hfits.trans hoff))

/-! ## Every command -/

/-- No command writes a byte of DST at or past `DST_LEN`. -/
theorem memByte_exec_dst_of_dstLen_le {i : Instr} {s t : State} {off : Nat} (hm : memWf s.dst = true)
    (h : exec i s = .next t) (hoff : s.regs.dstLen.toNat ≤ off) : memByte t.dst off = memByte s.dst off := by
  cases hd : destChannels i with
  | none => rw [exec_dst_of_destChannels_none hd h]
  | some ch =>
    obtain rfl := destChannels_eq_some_iff.mp hd
    cases (exec_assembleCmd ch s).symm.trans h
    exact memByte_assemble_dst_of_dstLen_le hm hoff

/-! ## The statements -/

/-- Settles O37: the commands without a channel count leave DST, and `memByte_assemble_dst` is the frame of the others. -/
theorem onlyAssembleWritesDst : Obligations.OnlyAssembleWritesDst := by
  unfold Obligations.OnlyAssembleWritesDst
  refine ⟨fun i s t h hrgb hrgba off => ?_, fun ch s t hm h off hoff => ?_⟩
  · rw [exec_dst_of_destChannels_none (destChannels_eq_none_iff.mpr ⟨hrgb, hrgba⟩) h]
  · cases (exec_assembleCmd ch s).symm.trans h
    rw [← outLen_eq_outputLength] at hoff
    exact memByte_assemble_dst hm hoff

/-- Settles O42: the pending word is a command, bounded by `memByte_exec_dst_of_dstLen_le`, or illegal, which leaves DST. -/
theorem noWritePastDstLen : Obligations.NoWritePastDstLen := by
  unfold Obligations.NoWritePastDstLen
  rintro s w t hm ⟨hclean, hp, hturn⟩ hstep off hoff
  have hengine := (step_engine hclean hp hturn).symm.trans hstep
  rcases engineStep_cases w s with ⟨i, _, he⟩ | ⟨_, _, he⟩
  · exact memByte_exec_dst_of_dstLen_le hm (he.symm.trans hengine) hoff
  · cases he.symm.trans hengine
    rfl

end Sys2Proof.Machine
end

section
/-! PROOF. What a command reads of SRC (spec/20_memory.md R60): PARSEBLK its block and DECODE its grid, each only once it lies
below `SRC_LEN`; the others nothing (R75). Each is said by changing SRC and comparing the outcomes. -/

namespace Sys2Proof.Machine

open Sys2Proof.Claims

/-- PARSEBLK reads of SRC the bytes of a block that lies below `SRC_LEN`, and no other. -/
theorem parseBlk_with_src {v : Variant} {s : State} {m : List Host.Cell}
    (h : s.regs.arg0.toNat + blockSize v ≤ s.regs.srcLen.toNat →
      ∀ k, k < blockSize v → memByte m (s.regs.arg0.toNat + k) = memByte s.src (s.regs.arg0.toNat + k)) :
    parseBlk v { s with src := m } = { parseBlk v s with src := m } := by
  rcases parseBlk_cases v s with ⟨hshort, hp⟩ | ⟨hfits, hp⟩
  · rw [hp]
    exact if_pos hshort
  · have hblock : parseBlock v m (offsetOperand s) = parseBlock v s.src (offsetOperand s) :=
      parseBlock_congr (h (blockSize_le_availFrom.mp hfits))
    rw [hp, ← hblock]
    exact if_neg (Nat.not_lt.mpr hfits)

/-- DECODE reads of SRC the bytes it requires, once they lie below `SRC_LEN`, and no other. -/
theorem decodeImage_with_src {v : Variant} {s : State} {m : List Host.Cell}
    (h : requiredBytes v s.regs.width.toNat s.regs.height.toNat ≤ s.regs.srcLen.toNat →
      ∀ off, off < requiredBytes v s.regs.width.toNat s.regs.height.toNat → memByte m off = memByte s.src off) :
    decodeImage v { s with src := m } = { decodeImage v s with src := m } := by
  rcases decodeImage_cases v s with ⟨hzero, hd⟩ | ⟨hdim, hshort, hd⟩ | ⟨hdim, hlen, hover, hd⟩ | ⟨hdim, hlen, hfree, hd⟩
  · rw [hd]
    exact if_pos hzero
  · rw [hd]
    exact (if_neg hdim).trans (if_pos hshort)
  · rw [hd]
    exact (if_neg hdim).trans ((if_neg (Nat.not_lt.mpr hlen)).trans (if_pos hover))
  · have himg : decodedImage v { s with src := m } = decodedImage v s := by
      rw [decodedImage, decodedImage, parseGrid_congr (h hlen)]
    rw [hd, ← himg]
    exact (if_neg hdim).trans ((if_neg (Nat.not_lt.mpr hlen)).trans (if_neg (by simp [hfree])))

/-- ASSEMBLE reads nothing of SRC. -/
theorem assemble_with_src (ch : Channels) (s : State) (m : List Host.Cell) :
    assemble ch { s with src := m } = { assemble ch s with src := m } := by
  rcases assemble_cases ch s with ⟨hnone, ha⟩ | ⟨hvalid, hsmall, ha⟩ | ⟨hvalid, hfits, ha⟩ <;> rw [ha]
  · exact if_pos hnone
  · exact (if_neg (by simp [hvalid])).trans (if_pos hsmall)
  · exact (if_neg (by simp [hvalid])).trans (if_neg (Nat.not_lt.mpr hfits))

/-- Settles O41: what PARSEBLK and DECODE read lies below `SRC_LEN`, and the others read nothing of SRC. -/
theorem noReadPastSrcLen : Obligations.NoReadPastSrcLen := by
  unfold Obligations.NoReadPastSrcLen
  intro i s m h
  cases i with
  | cvt565 | recon => exact ⟨_, rfl, rfl⟩
  | parseblkDxt1 | parseblkDxt3 =>
    exact ⟨_, rfl, congrArg _ (parseBlk_with_src fun hfits k hk => h _ (by omega))⟩
  | decodeDxt1 | decodeDxt3 =>
    exact ⟨_, rfl, congrArg _ (decodeImage_with_src fun hlen off hoff => h off (by omega))⟩
  | assembleRgb | assembleRgba => exact ⟨_, rfl, congrArg _ (assemble_with_src _ s m)⟩

/-- A host write of SRC leaves the registers and the image store, also where it is a violation. -/
theorem hostSrcWrite_regs_img {off : Nat} {bytes : List Byte} {s t : State} (h : hostSrcWrite off bytes s = .next t) :
    t.regs = s.regs ∧ t.img = s.img := by
  rcases hostSrcWrite_cases off bytes s with ⟨_, hw⟩ | ⟨_, _, hw⟩ | ⟨_, _, hw⟩ <;> cases hw.symm.trans h <;>
    exact ⟨rfl, rfl⟩

/-- Settles O43: a host write of SRC leaves what was parsed or decoded, and RECON and ASSEMBLE read nothing of SRC. -/
theorem decodedDataAreCopies : Obligations.DecodedDataAreCopies := by
  unfold Obligations.DecodedDataAreCopies
  refine ⟨?_, fun s m => ⟨_, rfl, rfl⟩, fun ch s m => ⟨_, exec_assembleCmd ch s, ?_⟩⟩
  · rintro s off bytes rest t ⟨hclean, hscript, hturn⟩ hstep
    exact hostSrcWrite_regs_img (s := s.advance rest) ((step_host hclean hscript hturn).symm.trans hstep)
  · rw [exec_assembleCmd, assemble_with_src]

end Sys2Proof.Machine
end

section
/-! PROOF. A host access past the 32-bit offsets (spec/20_memory.md R60, R61) stops the run. -/

namespace Sys2Proof.Machine

theorem hostSrcWrite_past_space {off : Nat} {bytes : List Byte} {s : State} (hidle : s.busy = false)
    (hout : 2 ^ 32 < off + bytes.length) : hostSrcWrite off bytes s = .fault .offsetOutOfSpace := by
  rcases hostSrcWrite_cases off bytes s with ⟨hbusy, _⟩ | ⟨_, hin, _⟩ | ⟨_, _, hw⟩
  · simp [hidle] at hbusy
  · omega
  · exact hw

theorem hostDstWrite_past_space {off : Nat} {bytes : List Byte} {s : State} (hidle : s.busy = false)
    (hout : 2 ^ 32 < off + bytes.length) : hostDstWrite off bytes s = .fault .offsetOutOfSpace := by
  rcases hostDstWrite_cases off bytes s with ⟨hbusy, _⟩ | ⟨_, hin, _⟩ | ⟨_, _, hw⟩
  · simp [hidle] at hbusy
  · omega
  · exact hw

/-- Unlike a write, a read past the space faults whether or not a command is pending. -/
theorem hostDstRead_past_space {off n : Nat} (s : State) (hout : 2 ^ 32 < off + n) :
    hostDstRead off n s = .fault .offsetOutOfSpace := by
  rcases hostDstRead_cases off n s with ⟨hin, _, _⟩ | ⟨hin, _, _⟩ | ⟨_, hr⟩
  · omega
  · omega
  · exact hr

/-- Settles O52, by the three kinds of access. -/
theorem hostAccessPastTheSpaceFaults : Obligations.HostAccessPastTheSpaceFaults := by
  unfold Obligations.HostAccessPastTheSpaceFaults
  rintro s a rest ⟨hclean, hscript, hturn⟩ hp haccess
  have hidle : (s.advance rest).busy = false := State.busy_none _ hp
  rw [step_host hclean hscript hturn]
  rcases haccess with ⟨off, bytes, rfl | rfl, hout⟩ | ⟨off, n, rfl, hout⟩
  · exact hostSrcWrite_past_space hidle hout
  · exact hostDstWrite_past_space hidle hout
  · exact hostDstRead_past_space _ hout

end Sys2Proof.Machine
end

section
/-! PROOF. Decoding and encoding (spec/30_encoding.md R90 to R98): the fields of a word determine it, and the decoder answers
with a command exactly on the words of the commands. -/

namespace Sys2Proof

/-! ## A word and its fields -/

theorem ofBool_getLsbD (w : Word) (n : Nat) : BitVec.ofBool (w.getLsbD n) = w.extractLsb' n 1 := by
  ext i hi
  simp [show i = 0 by omega]

/-- The fields of spec/30_encoding.md R90 cover the whole word. -/
theorem wordOf_fieldsOf (w : Word) : wordOf (fieldsOf w) = w := by
  have h5 : w.extractLsb' 6 26 ++ w.extractLsb' 5 1 = w.extractLsb' 5 27 :=
    BitVec.extractLsb'_append_extractLsb'_eq_extractLsb' rfl
  have h4 : w.extractLsb' 5 27 ++ w.extractLsb' 4 1 = w.extractLsb' 4 28 :=
    BitVec.extractLsb'_append_extractLsb'_eq_extractLsb' rfl
  have h0 : w.extractLsb' 4 28 ++ w.extractLsb' 0 4 = w.extractLsb' 0 32 :=
    BitVec.extractLsb'_append_extractLsb'_eq_extractLsb' rfl
  calc wordOf (fieldsOf w)
      = w.extractLsb' 6 26 ++ w.extractLsb' 5 1 ++ w.extractLsb' 4 1 ++ w.extractLsb' 0 4 := by
        rw [← ofBool_getLsbD, ← ofBool_getLsbD]
        rfl
    _ = w := by rw [h5, h4, h0, BitVec.extractLsb'_eq_self]

/-- The laws of the eight words, together. -/
theorem encodedFields (i : Instr) : Laws.EncodedFields.Statement i := by
  cases i with
  | cvt565 => exact Laws.EncodedFields.cvt565
  | parseblkDxt1 => exact Laws.EncodedFields.parseblkDxt1
  | parseblkDxt3 => exact Laws.EncodedFields.parseblkDxt3
  | recon => exact Laws.EncodedFields.recon
  | decodeDxt1 => exact Laws.EncodedFields.decodeDxt1
  | decodeDxt3 => exact Laws.EncodedFields.decodeDxt3
  | assembleRgb => exact Laws.EncodedFields.assembleRgb
  | assembleRgba => exact Laws.EncodedFields.assembleRgba

theorem fieldsOf_encode (i : Instr) : fieldsOf (encode i) = encodeFields i := (encodedFields i).1

theorem wf_fieldsOf_encode (i : Instr) : (fieldsOf (encode i)).wf = true := (encodedFields i).2

/-! ## The operations -/

theorem selectOp_encodeFields (i : Instr) : selectOp (encodeFields i) = .ok i := by
  cases i <;> rfl

theorem plainOp_eq_ok_iff {f : CmdFields} {i j : Instr} :
    plainOp f i = .ok j ↔ f.v = false ∧ f.ch = false ∧ i = j := by
  unfold plainOp
  cases f.v <;> cases f.ch <;> simp

theorem variantOp_eq_ok_iff {f : CmdFields} {dxt1 dxt3 j : Instr} :
    variantOp f dxt1 dxt3 = .ok j ↔ f.ch = false ∧ (if f.v then dxt3 else dxt1) = j := by
  unfold variantOp
  cases f.ch <;> simp

theorem channelOp_eq_ok_iff {f : CmdFields} {rgb rgba j : Instr} :
    channelOp f rgb rgba = .ok j ↔ f.v = false ∧ (if f.ch then rgba else rgb) = j := by
  unfold channelOp
  cases f.v <;> simp

/-- Fields whose operation selects a command are that command's row of spec/30_encoding.md R94. -/
theorem eq_encodeFields_of_selectOp {f : CmdFields} {i : Instr} (hres : f.reserved = 0) (h : selectOp f = .ok i) :
    f = encodeFields i := by
  obtain ⟨op, v, ch, res⟩ := f
  have hop : ∀ n : BitVec 4, op.toNat = n.toNat → op = n := fun n => BitVec.eq_of_toNat_eq
  obtain rfl : res = 0 := hres
  unfold selectOp at h
  split at h
  next h1 =>
    obtain ⟨rfl, rfl, rfl⟩ := plainOp_eq_ok_iff.mp h
    rw [hop 1 h1, encodeFields]
  next h2 =>
    obtain ⟨rfl, rfl⟩ := variantOp_eq_ok_iff.mp h
    rw [hop 2 h2]
    cases v <;> rfl
  next h3 =>
    obtain ⟨rfl, rfl, rfl⟩ := plainOp_eq_ok_iff.mp h
    rw [hop 3 h3, encodeFields]
  next h4 =>
    obtain ⟨rfl, rfl⟩ := variantOp_eq_ok_iff.mp h
    rw [hop 4 h4]
    cases v <;> rfl
  next h5 =>
    obtain ⟨rfl, rfl⟩ := channelOp_eq_ok_iff.mp h
    rw [hop 5 h5]
    cases ch <;> rfl
  next => cases h

/-! ## The decoder -/

theorem decode_encode (i : Instr) : decode (encode i) = .ok i := by
  rw [decode, fieldsOf_encode, selectOp_encodeFields]
  cases i <;> rfl

/-- The decoder answers with a command exactly on the command's one word. -/
theorem decode_eq_ok_iff {w : Word} {i : Instr} : decode w = .ok i ↔ encode i = w := by
  constructor
  · intro h
    unfold decode at h
    split at h
    next hres => rw [encode, ← eq_encodeFields_of_selectOp hres h, wordOf_fieldsOf]
    next => cases h
  · rintro rfl
    exact decode_encode i

theorem decode_eq_error_iff {w : Word} : (∃ e, decode w = .error e) ↔ ¬∃ i, decode w = .ok i := by
  cases decode w <;> simp

/-- The words of spec/30_encoding.md R94, in the table's order. -/
theorem map_encode_allInstrs :
    allInstrs.map encode = [0x00000001#32, 0x00000002#32, 0x00000012#32, 0x00000003#32, 0x00000004#32, 0x00000014#32,
      0x00000005#32, 0x00000025#32] := by
  decide

theorem mem_allInstrs (i : Instr) : i ∈ allInstrs := by
  cases i <;> decide

/-! ## The field checks -/

theorem CmdFields.opDefined_iff {f : CmdFields} : f.opDefined = true ↔ 1 ≤ f.op.toNat ∧ f.op.toNat ≤ 5 := by
  simp [CmdFields.opDefined]

theorem CmdFields.reservedClear_iff {f : CmdFields} : f.reservedClear = true ↔ f.reserved = 0 := decide_eq_true_iff

theorem CmdFields.variantUsed_iff {f : CmdFields} : f.variantUsed = true ↔ (f.v = true → f.op = 2 ∨ f.op = 4) := by
  unfold CmdFields.variantUsed
  cases f.v <;> simp

theorem CmdFields.channelUsed_iff {f : CmdFields} : f.channelUsed = true ↔ (f.ch = true → f.op = 5) := by
  unfold CmdFields.channelUsed
  cases f.ch <;> simp

theorem CmdFields.wf_iff {f : CmdFields} :
    f.wf = true ↔ (1 ≤ f.op.toNat ∧ f.op.toNat ≤ 5) ∧ f.reserved = 0 ∧ (f.v = true → f.op = 2 ∨ f.op = 4) ∧
      (f.ch = true → f.op = 5) := by
  simp only [CmdFields.wf, Bool.and_eq_true, opDefined_iff, reservedClear_iff, variantUsed_iff, channelUsed_iff, and_assoc]

/-- Fields that pass the checks are those of a command: by the operation, with each flag free only where it is used. -/
theorem exists_encodeFields_of_wf {f : CmdFields} (h : f.wf = true) : ∃ i, f = encodeFields i := by
  obtain ⟨hop, hres, hv, hch⟩ := CmdFields.wf_iff.mp h
  obtain ⟨op, v, ch, res⟩ := f
  simp only at hop hres hv hch
  subst hres
  have hcases : op = 1 ∨ op = 2 ∨ op = 3 ∨ op = 4 ∨ op = 5 := by bv_omega
  rcases hcases with rfl | rfl | rfl | rfl | rfl
  · obtain rfl : v = false := by simpa using hv
    obtain rfl : ch = false := by simpa using hch
    exact ⟨.cvt565, rfl⟩
  · obtain rfl : ch = false := by simpa using hch
    cases v
    · exact ⟨.parseblkDxt1, rfl⟩
    · exact ⟨.parseblkDxt3, rfl⟩
  · obtain rfl : v = false := by simpa using hv
    obtain rfl : ch = false := by simpa using hch
    exact ⟨.recon, rfl⟩
  · obtain rfl : ch = false := by simpa using hch
    cases v
    · exact ⟨.decodeDxt1, rfl⟩
    · exact ⟨.decodeDxt3, rfl⟩
  · obtain rfl : v = false := by simpa using hv
    cases ch
    · exact ⟨.assembleRgb, rfl⟩
    · exact ⟨.assembleRgba, rfl⟩

theorem wf_fieldsOf_iff {w : Word} : (fieldsOf w).wf = true ↔ ∃ i, decode w = .ok i := by
  constructor
  · intro h
    obtain ⟨i, hi⟩ := exists_encodeFields_of_wf h
    exact ⟨i, decode_eq_ok_iff.mpr (by rw [encode, ← hi, wordOf_fieldsOf])⟩
  · rintro ⟨i, hi⟩
    rw [← decode_eq_ok_iff.mp hi]
    exact wf_fieldsOf_encode i

/-! ## The fields as numbers -/

theorem fieldsOf_op_toNat (w : Word) : (fieldsOf w).op.toNat = w.toNat % 16 := by
  simp [fieldsOf, BitVec.extractLsb'_toNat]

theorem fieldsOf_v_iff {w : Word} : (fieldsOf w).v = true ↔ w.toNat / 16 % 2 = 1 := by
  simp [fieldsOf, BitVec.getLsbD, Nat.testBit_eq_decide_div_mod_eq]

theorem fieldsOf_ch_iff {w : Word} : (fieldsOf w).ch = true ↔ w.toNat / 32 % 2 = 1 := by
  simp [fieldsOf, BitVec.getLsbD, Nat.testBit_eq_decide_div_mod_eq]

theorem fieldsOf_reserved_eq_zero_iff {w : Word} : (fieldsOf w).reserved = 0 ↔ w.toNat < 64 := by
  have := w.isLt
  have hbits : (fieldsOf w).reserved.toNat = w.toNat / 64 % 2 ^ 26 := by
    simp [fieldsOf, BitVec.extractLsb'_toNat, Nat.shiftRight_eq_div_pow]
  rw [← BitVec.toNat_inj, hbits, BitVec.ofNat_eq_ofNat, BitVec.toNat_zero]
  omega

theorem fieldsOf_op_eq_iff {w : Word} {n : BitVec 4} : (fieldsOf w).op = n ↔ w.toNat % 16 = n.toNat := by
  rw [← BitVec.toNat_inj, fieldsOf_op_toNat]

/-- The checks of spec/30_encoding.md R91 to R93, R96, as arithmetic on the word. -/
theorem wf_fieldsOf_iff_toNat {w : Word} : (fieldsOf w).wf = true ↔
    (1 ≤ w.toNat % 16 ∧ w.toNat % 16 ≤ 5) ∧ w.toNat < 64 ∧
    (w.toNat / 16 % 2 = 1 → w.toNat % 16 = 2 ∨ w.toNat % 16 = 4) ∧ (w.toNat / 32 % 2 = 1 → w.toNat % 16 = 5) := by
  rw [CmdFields.wf_iff, fieldsOf_op_toNat, fieldsOf_reserved_eq_zero_iff, fieldsOf_v_iff, fieldsOf_ch_iff,
    fieldsOf_op_eq_iff, fieldsOf_op_eq_iff, fieldsOf_op_eq_iff]
  exact Iff.rfl

/-- A word has no command exactly in one of the cases of spec/30_encoding.md R96. -/
theorem decode_error_iff {w : Word} : (∃ e, decode w = .error e) ↔
    (w.toNat % 16 = 0 ∨ 6 ≤ w.toNat % 16) ∨ 64 ≤ w.toNat ∨
    (w.toNat / 16 % 2 = 1 ∧ w.toNat % 16 ≠ 2 ∧ w.toNat % 16 ≠ 4) ∨ (w.toNat / 32 % 2 = 1 ∧ w.toNat % 16 ≠ 5) := by
  rw [decode_eq_error_iff, ← wf_fieldsOf_iff, wf_fieldsOf_iff_toNat]
  omega

/-! ## The statements -/

/-- Settles O2: the fields of a command's word are the command's, and the fields of a word determine it. -/
theorem decodeAndEncodeAgree : Obligations.DecodeAndEncodeAgree := by
  unfold Obligations.DecodeAndEncodeAgree
  exact ⟨decode_encode, fun w i => decode_eq_ok_iff.mp⟩

/-- Settles O4: fields that pass the checks are those of a command, whose word decodes to it. -/
theorem fieldsAreWellFormedIffDecoded : Obligations.FieldsAreWellFormedIffDecoded := by
  unfold Obligations.FieldsAreWellFormedIffDecoded
  exact fun w => wf_fieldsOf_iff

/-- Settles O5: the eight words are those of the commands in the table's order. -/
theorem eightWordsDecode : Obligations.EightWordsDecode := by
  unfold Obligations.EightWordsDecode
  rw [← map_encode_allInstrs, List.map_map]
  exact List.map_congr_left fun i _ => decode_encode i

end Sys2Proof
end

section
/-! PROOF. The decoder in the steps (spec/30_encoding.md R96, R98): the issue of a word and its completion, legal or not. -/

namespace Sys2Proof.Machine

open Sys2Proof.Claims

/-- Settles O1: the table words by `decode_encode`, every other word since a decoded one is in the table, and the completion
by `step_engine`. -/
theorem decodeFollowsTheOpcodeMap : Obligations.DecodeFollowsTheOpcodeMap := by
  unfold Obligations.DecodeFollowsTheOpcodeMap
  refine ⟨⟨decode_encode .cvt565, decode_encode .parseblkDxt1, decode_encode .parseblkDxt3, decode_encode .recon,
    decode_encode .decodeDxt1, decode_encode .decodeDxt3, decode_encode .assembleRgb, decode_encode .assembleRgba⟩, ?_, ?_⟩
  · intro w hw
    rw [← map_encode_allInstrs] at hw
    rw [decode_eq_error_iff]
    rintro ⟨i, hi⟩
    exact hw (List.mem_map.mpr ⟨i, mem_allInstrs i, decode_eq_ok_iff.mp hi⟩)
  · rintro s w ⟨hclean, hp, hturn⟩
    rw [step_engine hclean hp hturn]
    rcases engineStep_cases w s with ⟨i, hd, he⟩ | ⟨e, hd, he⟩ <;> rw [he, hd]

/-- A host write of `CMD` while BUSY = 0 issues the word, whether or not it is a command's
(spec/70_reset_and_hazards.md R282). -/
theorem step_cmdWrite_idle {s : State} {w : Word} {rest : List HostAct} (h : HostMoves s (.regWrite 32 0 w) rest)
    (hidle : s.pending = none) : step s = .next ((s.advance rest).issue w) := by
  obtain ⟨hclean, hscript, hturn⟩ := h
  exact (step_host hclean hscript hturn).trans (hostRegWrite_idle (r := .cmd) w rfl hidle)

theorem engineStep_illegal {w : Word} (s : State) (h : ∃ e, decode w = .error e) :
    engineStep w s = .next (s.complete .illegalCommand) := by
  rcases engineStep_cases w s with ⟨i, hd, _⟩ | ⟨_, _, he⟩
  · exact absurd ⟨i, hd⟩ (decode_eq_error_iff.mp h)
  · exact he

/-- Settles O3: `decode_error_iff`, the issue of any word, and the completion of an illegal one. -/
theorem illegalWordsChangeOnlyStatus : Obligations.IllegalWordsChangeOnlyStatus := by
  unfold Obligations.IllegalWordsChangeOnlyStatus
  refine ⟨fun w => decode_error_iff, fun s w rest hmoves hidle _ => ⟨_, step_cmdWrite_idle hmoves hidle, rfl, rfl⟩, ?_,
    decode_error_iff.mpr (by decide)⟩
  rintro s w ⟨hclean, hp, hturn⟩ hillegal
  exact (step_engine hclean hp hturn).trans (engineStep_illegal s hillegal)

end Sys2Proof.Machine
end

section
/-! PROOF. The host's bytes in SRC and DST, and polling (spec/30_encoding.md R106, spec/70_reset_and_hazards.md R287, R289). -/

namespace Sys2Proof.Machine

open Sys2Proof.Claims

/-- A sequence of bytes lands in order from its offset on, and every other byte stays. -/
theorem memStoreAll_lands {m : List Host.Cell} {off : Nat} {bytes : List Byte} (hm : memWf m = true)
    (hin : off + bytes.length ≤ 2 ^ 32) :
    (∀ k b, bytes[k]? = some b → memByte (memStoreAll m off bytes) (off + k) = b) ∧
    (∀ o, o < off ∨ off + bytes.length ≤ o → memByte (memStoreAll m off bytes) o = memByte m o) := by
  refine ⟨fun k b hb => ?_, fun o => memByte_memStoreAll_outside hm hin⟩
  obtain ⟨hk, rfl⟩ := List.getElem?_eq_some_iff.mp hb
  exact memByte_memStoreAll_inside hm hin hk

theorem hostSrcWrite_idle {off : Nat} {bytes : List Byte} {s : State} (hidle : s.busy = false)
    (hin : off + bytes.length ≤ 2 ^ 32) :
    hostSrcWrite off bytes s = .next { s with src := memStoreAll s.src off bytes } := by
  rcases hostSrcWrite_cases off bytes s with ⟨hbusy, _⟩ | ⟨_, _, hw⟩ | ⟨_, hout, _⟩
  · simp [hidle] at hbusy
  · exact hw
  · omega

theorem hostDstWrite_idle {off : Nat} {bytes : List Byte} {s : State} (hidle : s.busy = false)
    (hin : off + bytes.length ≤ 2 ^ 32) :
    hostDstWrite off bytes s = .next { s with dst := memStoreAll s.dst off bytes } := by
  rcases hostDstWrite_cases off bytes s with ⟨hbusy, _⟩ | ⟨_, _, hw⟩ | ⟨_, hout, _⟩
  · simp [hidle] at hbusy
  · exact hw
  · omega

/-- Settles O50: the host's write is `memStoreAll`, whose bytes land by `memStoreAll_lands`. -/
theorem hostStoresItsBytes : Obligations.HostStoresItsBytes := by
  unfold Obligations.HostStoresItsBytes
  constructor
  · rintro s off bytes rest ⟨hclean, hscript, hturn⟩ hp hm hin
    exact ⟨_, _, (step_host hclean hscript hturn).trans (hostSrcWrite_idle (State.busy_none _ hp) hin),
      memStoreAll_lands hm hin⟩
  · rintro s off bytes rest ⟨hclean, hscript, hturn⟩ hp hm hin
    exact ⟨_, _, (step_host hclean hscript hturn).trans (hostDstWrite_idle (State.busy_none _ hp) hin),
      memStoreAll_lands hm hin⟩

theorem hostPoll_idle {s : State} (hidle : s.pending = none) : hostPoll s = .next s := by
  rcases hostPoll_cases s with ⟨hbusy, _⟩ | ⟨_, hp⟩
  · exact absurd hidle (busy_iff.mp hbusy)
  · exact hp

theorem hostPoll_busy {s : State} (hbusy : s.pending ≠ none) :
    hostPoll s = .next { s with script := .poll :: s.script } := by
  rcases hostPoll_cases s with ⟨_, hp⟩ | ⟨hidle, _⟩
  · exact hp
  · simp [busy_iff.mpr hbusy] at hidle

/-- A poll while BUSY = 1 stays the next action, with one host action fewer before the completion (log 3, log 10). -/
theorem step_poll_busy {s : State} {rest : List HostAct} (h : HostMoves s .poll rest) (hbusy : s.pending ≠ none) :
    step s = .next { s with delay := s.delay - 1 } := by
  obtain ⟨hclean, hscript, hturn⟩ := h
  have hagain := (step_host hclean hscript hturn).trans (hostPoll_busy (s := s.advance rest) hbusy)
  rw [hagain, State.advance_script, ← hscript]
  rfl

/-- Settles O51: `hostPoll_idle`, and `step_poll_busy` with a delay that is not 0 in the host's turn. -/
theorem pollReadsUntilIdle : Obligations.PollReadsUntilIdle := by
  unfold Obligations.PollReadsUntilIdle
  constructor
  · rintro s rest ⟨hclean, hscript, hturn⟩ hidle
    exact ⟨_, (step_host hclean hscript hturn).trans (hostPoll_idle (s := s.advance rest) hidle)⟩
  · intro s rest hmoves hbusy
    have ⟨_, _, hturn⟩ := hmoves
    have hdelay : s.delay ≠ 0 := hturn.resolve_left hbusy
    exact ⟨_, step_poll_busy hmoves hbusy, by omega⟩

end Sys2Proof.Machine
end

section
/-! PROOF. Host scripts (spec/30_encoding.md R105 to R108): the names, and the transactions of the statements. -/

namespace Sys2Proof.Machine

theorem instrNamed_mnemonic (i : Instr) : instrNamed (mnemonic i) = some i := by
  cases i <;> decide

theorem regNamed_regText (r : RegName) : regNamed (regText r) = some r := by
  cases r with
  | tile k => revert k; decide
  | _ => decide

/-- Settles O6: each command by its mnemonic, each register by its name, the sixteen of `TILE` by their numbers. -/
theorem namesStandForCommandsAndRegisters : Obligations.NamesStandForCommandsAndRegisters := by
  unfold Obligations.NamesStandForCommandsAndRegisters
  exact ⟨instrNamed_mnemonic, regNamed_regText⟩

@[simp] theorem program_append (a b : List Stmt) : program (a ++ b) = program a ++ program b :=
  List.flatMap_append

/-- Settles O60: each statement is its one transaction, and `program_append` is the order. -/
theorem statementsExpandToTransactions : Obligations.StatementsExpandToTransactions := by
  unfold Obligations.StatementsExpandToTransactions
  exact ⟨fun _ _ => rfl, fun _ _ => rfl, fun _ => rfl, fun _ => rfl, rfl, fun _ _ => rfl, fun _ _ => rfl, program_append,
    fun _ _ => rfl⟩

/-- Settles O7: both sides expand to the same transactions, with the word of CVT565 computed. -/
theorem pseudoInstructionsExpand : Obligations.PseudoInstructionsExpand := by
  unfold Obligations.PseudoInstructionsExpand
  exact ⟨fun _ => rfl, fun _ _ _ => rfl, fun _ => rfl, fun _ => rfl, fun _ _ _ => rfl, fun _ => rfl⟩

end Sys2Proof.Machine
end

section
/-! PROOF. The packed 565 colour and CVT565 (spec/41_color565.md): the fields and channels of a packed colour as numbers. -/

namespace Sys2Proof.Machine

open Sys2Proof.Claims

/-! ## The scaling -/

/-- A 5-bit field scaled is at most 255, so the byte holds it. -/
theorem expand5_toNat (v : BitVec 5) : (expand5 v).toNat = v.toNat * 255 / 31 := by
  have hfits : v.toNat * 255 / 31 < 2 ^ 8 := by omega
  rw [expand5, BitVec.toNat_ofNat, Nat.mod_eq_of_lt hfits]

/-- A 6-bit field scaled is at most 255, so the byte holds it. -/
theorem expand6_toNat (v : BitVec 6) : (expand6 v).toNat = v.toNat * 255 / 63 := by
  have hfits : v.toNat * 255 / 63 < 2 ^ 8 := by omega
  rw [expand6, BitVec.toNat_ofNat, Nat.mod_eq_of_lt hfits]

/-! ## The fields -/

theorem redField_rHigh_toNat (p : Half) : (redField .rHigh p).toNat = p.toNat / 2048 := by
  have := p.isLt
  simp only [redField, BitVec.extractLsb'_toNat, Nat.shiftRight_eq_div_pow]
  omega

theorem redField_bHigh_toNat (p : Half) : (redField .bHigh p).toNat = p.toNat % 32 := by
  simp [redField, BitVec.extractLsb'_toNat]

theorem greenField_toNat (p : Half) : (greenField p).toNat = p.toNat / 32 % 64 := by
  simp [greenField, BitVec.extractLsb'_toNat, Nat.shiftRight_eq_div_pow]

/-- Blue stands where the other layout has red (spec/41_color565.md R121). -/
theorem blueField_rHigh (p : Half) : blueField .rHigh p = redField .bHigh p := rfl

theorem blueField_bHigh (p : Half) : blueField .bHigh p = redField .rHigh p := rfl

/-! ## The channels -/

theorem unpack565_r_toNat (l : Layout565) (p : Half) : (unpack565 l p).r.toNat = redOf l p.toNat := by
  rw [unpack565, expand5_toNat]
  cases l with
  | rHigh => rw [redField_rHigh_toNat, redOf]
  | bHigh => rw [redField_bHigh_toNat, redOf]

theorem unpack565_g_toNat (l : Layout565) (p : Half) : (unpack565 l p).g.toNat = greenOf p.toNat := by
  rw [unpack565, expand6_toNat, greenField_toNat, greenOf]

theorem unpack565_b_toNat (l : Layout565) (p : Half) : (unpack565 l p).b.toNat = blueOf l p.toNat := by
  rw [unpack565, expand5_toNat]
  cases l with
  | rHigh => rw [blueField_rHigh, redField_bHigh_toNat, blueOf]
  | bHigh => rw [blueField_bHigh, redField_rHigh_toNat, blueOf]

/-- The packed opaque colour as a number (spec/00_scope.md R10). -/
theorem pack32_rgbaOf_toNat (c : Rgb) : (pack32 (rgbaOf c)).toNat = packed c.r.toNat c.g.toNat c.b.toNat :=
  pack32_toNat _

/-! ## The statements -/

/-- Settles O13: the scaling does not wrap, and each channel is its layout's field, scaled. -/
theorem unpackScalesEachField : Obligations.UnpackScalesEachField := by
  unfold Obligations.UnpackScalesEachField
  exact ⟨expand5_toNat, rfl, rfl, expand6_toNat, rfl, rfl,
    fun l p => ⟨unpack565_r_toNat l p, unpack565_g_toNat l p, unpack565_b_toNat l p, rfl⟩⟩

/-- CVT565 completes with the packed colour of its operand in `RES`. -/
theorem exec_cvt565 (s : State) : exec .cvt565 s = .next { s with
    regs := { s.regs with res := pack32 (rgbaOf (unpack565 s.params.layout565 (packedOperand s))) },
    pending := none, done := true, err := .ok } := rfl

theorem packedOperand_toNat (s : State) : (packedOperand s).toNat = s.regs.arg0.toNat % 65536 := lowHalf_toNat _

/-- Settles O14: `decode_eq_ok_iff` for its one word, `exec_cvt565`, and the channels of the packed operand. -/
theorem cvt565WritesRes : Obligations.Cvt565WritesRes := by
  unfold Obligations.Cvt565WritesRes
  refine ⟨fun w => ?_, fun s => ⟨_, exec_cvt565 s, ?_⟩⟩
  · have hword : encode .cvt565 = 0x00000001#32 := by decide
    rw [decode_eq_ok_iff, hword, eq_comm]
  · rw [pack32_rgbaOf_toNat, unpack565_r_toNat, unpack565_g_toNat, unpack565_b_toNat, packedOperand_toNat]

end Sys2Proof.Machine
end

section
/-! PROOF. The block parser and PARSEBLK (spec/42_block_parser.md): the little-endian fields of SRC as numbers, the block at
an offset, and the two ways a PARSEBLK ends. -/

namespace Sys2Proof.Machine

open Sys2Proof.Claims

/-! ## The little-endian fields -/

theorem memRead_two (m : List Host.Cell) (off : Nat) : memRead m off 2 = halfAt m off := by
  simp only [memRead, halfAt, Nat.add_zero]
  omega

theorem memRead_four (m : List Host.Cell) (off : Nat) : memRead m off 4 = wordAt m off := by
  simp only [memRead, wordAt, Nat.add_zero]
  omega

theorem memRead_eight (m : List Host.Cell) (off : Nat) :
    memRead m off 8 = wordAt m off + 2 ^ 32 * wordAt m (off + 4) := by
  simp only [memRead, wordAt, Nat.add_zero, Nat.add_assoc, Nat.reduceAdd]
  omega

/-- A field read into as many bits as it has does not wrap. -/
theorem ofNat_memRead_toNat (m : List Host.Cell) (off n : Nat) :
    (BitVec.ofNat (8 * n) (memRead m off n)).toNat = memRead m off n := by
  rw [BitVec.toNat_ofNat, Nat.mod_eq_of_lt (memRead_lt m off n)]

theorem wordAt_lt (m : List Host.Cell) (off : Nat) : wordAt m off < 2 ^ 32 := memRead_four m off ▸ memRead_lt m off 4

theorem ofNat_memRead_two_toNat (m : List Host.Cell) (off : Nat) :
    (BitVec.ofNat 16 (memRead m off 2)).toNat = halfAt m off :=
  (ofNat_memRead_toNat m off 2).trans (memRead_two m off)

theorem ofNat_memRead_four_toNat (m : List Host.Cell) (off : Nat) :
    (BitVec.ofNat 32 (memRead m off 4)).toNat = wordAt m off :=
  (ofNat_memRead_toNat m off 4).trans (memRead_four m off)

theorem ofNat_memRead_eight_toNat (m : List Host.Cell) (off : Nat) :
    (BitVec.ofNat 64 (memRead m off 8)).toNat = wordAt m off + 2 ^ 32 * wordAt m (off + 4) :=
  (ofNat_memRead_toNat m off 8).trans (memRead_eight m off)

/-! ## The block -/

/-- The parser answers the block at its offset (spec/42_block_parser.md R141 to R143). -/
theorem isBlockAt_parseBlock (v : Variant) (m : List Host.Cell) (o : Nat) : IsBlockAt v m o (parseBlock v m o) := by
  cases v with
  | noAlpha =>
    exact ⟨ofNat_memRead_two_toNat m o, ofNat_memRead_two_toNat m (o + 2), ofNat_memRead_four_toNat m (o + 4), rfl⟩
  | alpha =>
    exact ⟨ofNat_memRead_two_toNat m (o + 8), ofNat_memRead_two_toNat m (o + 10),
      ofNat_memRead_four_toNat m (o + 12), ofNat_memRead_eight_toNat m o⟩

theorem blockSize_eq_bytesPerBlock (v : Variant) : blockSize v = bytesPerBlock v := by cases v <;> rfl

/-! ## PARSEBLK -/

theorem exec_parseCmd (v : Variant) (s : State) : exec (parseCmd v) s = .next (parseBlk v s) := by cases v <;> rfl

/-- PARSEBLK with a whole block left writes that block into the block record registers and completes. -/
theorem parseBlk_of_fits {v : Variant} {s : State} (h : s.regs.arg0.toNat + blockSize v ≤ s.regs.srcLen.toNat) :
    parseBlk v s = { s with
      regs := s.regs.setRecord (parseBlock v s.src s.regs.arg0.toNat), pending := none, done := true, err := .ok } :=
  ((parseBlk_cases v s).resolve_left fun ⟨hshort, _⟩ => Nat.not_lt.mpr (blockSize_le_availFrom.mpr h) hshort).2

/-- PARSEBLK with too few bytes left records the block size and the bytes that remain, and completes with the error. -/
theorem parseBlk_of_short {v : Variant} {s : State} (h : s.regs.srcLen.toNat < s.regs.arg0.toNat + blockSize v) :
    parseBlk v s = { s with
      regs := { s.regs with
        errReqLo := BitVec.ofNat 32 (blockSize v), errReqHi := 0,
        errAvail := BitVec.ofNat 32 (availFrom s.regs.arg0.toNat s.regs.srcLen.toNat) },
      pending := none, done := true, err := .invalidData } := by
  have hlow : lowWord (BitVec.ofNat 64 (blockSize v)) = BitVec.ofNat 32 (blockSize v) := by cases v <;> decide
  have hhigh : highWord (BitVec.ofNat 64 (blockSize v)) = 0 := by cases v <;> decide
  rw [← hlow, ← hhigh]
  exact ((parseBlk_cases v s).resolve_right fun ⟨hfits, _⟩ => Nat.not_lt.mpr (blockSize_le_availFrom.mp hfits) h).2

/-- The bytes that remain are the truncated difference (spec/42_block_parser.md R144). -/
theorem availFrom_eq_sub (o n : Nat) : availFrom o n = n - o := by
  unfold availFrom
  split <;> omega

/-! ## The statements -/

/-- Settles O15: the record is the eight bytes' block, without a payload, and `BLK_COL` holds its two endpoints. -/
theorem parseblkDxt1WritesRecord : Obligations.ParseblkDxt1WritesRecord := by
  unfold Obligations.ParseblkDxt1WritesRecord
  intro s hfits
  obtain ⟨hcol1, hcol2, hidx, halpha⟩ := isBlockAt_parseBlock .noAlpha s.src s.regs.arg0.toNat
  have hexec := exec_parseCmd .noAlpha s
  rw [parseBlk_of_fits hfits, Regs.setRecord, halpha] at hexec
  refine ⟨_, _, hexec, ?_, hidx⟩
  rw [append_half_toNat, hcol1, hcol2]

/-- Settles O16: the record is the sixteen bytes' block, and the alpha registers hold the two words of its payload. -/
theorem parseblkDxt3WritesRecord : Obligations.ParseblkDxt3WritesRecord := by
  unfold Obligations.ParseblkDxt3WritesRecord
  intro s hfits
  obtain ⟨hcol1, hcol2, hidx, halpha⟩ := isBlockAt_parseBlock .alpha s.src s.regs.arg0.toNat
  have hword := wordAt_lt s.src s.regs.arg0.toNat
  refine ⟨_, _, _, _, (exec_parseCmd .alpha s).trans (congrArg _ (parseBlk_of_fits hfits)), ?_, ?_, ?_, hidx⟩
  · rw [lowWord_toNat, halpha]
    omega
  · rw [highWord_toNat, halpha]
    omega
  · rw [append_half_toNat, hcol1, hcol2]

/-- Settles O17: `parseBlk_of_short`, and neither recorded count wraps. -/
theorem parseblkFailureRecordsBytes : Obligations.ParseblkFailureRecordsBytes := by
  unfold Obligations.ParseblkFailureRecordsBytes
  intro v s hshort
  rw [← blockSize_eq_bytesPerBlock] at hshort ⊢
  have hlen := s.regs.srcLen.isLt
  refine ⟨_, _, (exec_parseCmd v s).trans (congrArg _ (parseBlk_of_short hshort)), ?_, ?_⟩
  · cases v <;> rfl
  · rw [availFrom_eq_sub, BitVec.toNat_ofNat, Nat.mod_eq_of_lt (by omega)]

/-- Settles O18: `parseBlk_with_src`, whose bytes are those of the block. -/
theorem parseblkReadsOnlyItsBlock : Obligations.ParseblkReadsOnlyItsBlock := by
  unfold Obligations.ParseblkReadsOnlyItsBlock
  intro v s m hblock
  rw [← blockSize_eq_bytesPerBlock] at hblock
  exact ⟨_, exec_parseCmd v s, by rw [exec_parseCmd, parseBlk_with_src fun _ => hblock]⟩

end Sys2Proof.Machine
end

section
/-! PROOF. The reconstructor and RECON (spec/43_reconstructor.md): the codes as bit pairs, the interpolation without
wrap, and a tile pixel by pixel. -/

namespace Sys2Proof.Machine

open Sys2Proof.Claims

/-! ## The codes -/

/-- A bit pair of a row byte is the bit pair of the indices that lies the row's eight bits higher. -/
theorem rowBits_bitPair (x : Word) (r : Nat) {n : Nat} (hn : n + 2 ≤ 8) :
    (rowBits x r >>> n).setWidth 2 = x.extractLsb' (8 * r + n) 2 := by
  ext i hi
  have hbit : n + i < 8 := by omega
  simp [rowBits, hbit, Nat.add_assoc]

/-- Under MSB_FIRST a row's codes are its bit pairs from the top down (spec/43_reconstructor.md R162). -/
theorem codeAt_msbFirst (x : Word) (r : Nat) {c : Nat} (hc : c < 4) :
    codeAt .msbFirst x r c = x.extractLsb' (2 * (4 * r + 3 - c)) 2 := by
  have hpos : 2 * (4 * r + 3 - c) = 8 * r + (6 - 2 * c) := by omega
  rw [hpos]
  exact rowBits_bitPair x r (by omega)

/-- Under LSB_FIRST a row's codes are its bit pairs from the bottom up (spec/43_reconstructor.md R162). -/
theorem codeAt_lsbFirst (x : Word) (r : Nat) {c : Nat} (hc : c < 4) :
    codeAt .lsbFirst x r c = x.extractLsb' (2 * (4 * r + c)) 2 := by
  have hpos : 2 * (4 * r + c) = 8 * r + 2 * c := by omega
  rw [hpos]
  exact rowBits_bitPair x r (by omega)

/-- In either order a code of the tile is one of the sixteen bit pairs. -/
theorem codeAt_eq_bitPair (o : ColOrder) (x : Word) {r c : Nat} (hr : r < 4) (hc : c < 4) :
    ∃ k < 16, codeAt o x r c = x.extractLsb' (2 * k) 2 := by
  cases o with
  | msbFirst => exact ⟨_, by omega, codeAt_msbFirst x r hc⟩
  | lsbFirst => exact ⟨_, by omega, codeAt_lsbFirst x r hc⟩

theorem codeAt_zero (o : ColOrder) {r c : Nat} (hr : r < 4) (hc : c < 4) : codeAt o 0 r c = 0 := by
  obtain ⟨k, -, hcode⟩ := codeAt_eq_bitPair o 0 hr hc
  rw [hcode]
  exact BitVec.extractLsb'_zero

theorem codeAt_allOnes (o : ColOrder) {r c : Nat} (hr : r < 4) (hc : c < 4) :
    codeAt o (BitVec.allOnes 32) r c = BitVec.allOnes 2 := by
  obtain ⟨k, hk, hcode⟩ := codeAt_eq_bitPair o (BitVec.allOnes 32) hr hc
  rw [hcode]
  ext i hi
  have hbit : 2 * k + i < 32 := by omega
  simp [-BitVec.reduceAllOnes, hbit]

theorem codeAt_toNat (o : ColOrder) (x : Word) (r c : Nat) : (codeAt o x r c).toNat = codeOf o x.toNat r c := by
  cases o <;> simp [codeAt, codeOf, rowBits, Nat.shiftRight_eq_div_pow]

/-- Row-major order numbers the sixteen pixels of a tile. -/
theorem existsUnique_rowMajor {k : Nat} (hk : k < 16) : ∃! p : Fin 4 × Fin 4, 4 * p.1.val + p.2.val = k := by
  refine ⟨(⟨k / 4, by omega⟩, ⟨k % 4, by omega⟩), Nat.div_add_mod k 4, fun ⟨r, c⟩ hrc => ?_⟩
  simp only [Prod.mk.injEq, Fin.ext_iff] at hrc ⊢
  omega

/-- Row-major order with each row mirrored numbers them too. -/
theorem existsUnique_rowMajor_mirrored {k : Nat} (hk : k < 16) :
    ∃! p : Fin 4 × Fin 4, 4 * p.1.val + 3 - p.2.val = k := by
  refine (((Equiv.refl _).prodCongr Fin.revPerm).existsUnique_congr fun p => ?_).mpr (existsUnique_rowMajor hk)
  have hmirror : 4 * p.1.val + 3 - p.2.val = 4 * p.1.val + p.2.rev.val := by
    rw [Fin.val_rev]
    omega
  rw [hmirror]
  rfl

/-- Settles O19: `rowBits_bitPair` under each order, the two numberings of the pixels, and a code's two bits. -/
theorem codesUseEveryBitPairOnce : Obligations.CodesUseEveryBitPairOnce := by
  unfold Obligations.CodesUseEveryBitPairOnce
  exact ⟨fun x r _ _ hc => ⟨codeAt_msbFirst x r hc, codeAt_lsbFirst x r hc⟩,
    fun _ hk => ⟨existsUnique_rowMajor_mirrored hk, existsUnique_rowMajor hk⟩,
    fun o x r c => Nat.le_of_lt_succ (codeAt o x r c).isLt⟩

/-! ## The interpolation -/

/-- The weights sum to three, so the weighted sum is at most three times 255 (spec/43_reconstructor.md R164). -/
theorem interp_sum_le (i : BitVec 2) (a b : Byte) : i.toNat * a.toNat + (3 - i.toNat) * b.toNat ≤ 765 := by
  have hi := i.isLt
  calc i.toNat * a.toNat + (3 - i.toNat) * b.toNat
      ≤ i.toNat * 255 + (3 - i.toNat) * 255 :=
        Nat.add_le_add (Nat.mul_le_mul_left _ (Nat.le_of_lt_succ a.isLt))
          (Nat.mul_le_mul_left _ (Nat.le_of_lt_succ b.isLt))
    _ = 765 := by omega

theorem interp_toNat (i : BitVec 2) (a b : Byte) : (interp i a b).toNat = mix i.toNat a.toNat b.toNat := by
  have hsum := interp_sum_le i a b
  rw [interp, BitVec.toNat_ofNat, mix, Nat.mod_eq_of_lt (by omega)]

theorem mix_zero (a b : Nat) : mix 0 a b = b := by
  rw [mix]
  omega

theorem mix_three (a b : Nat) : mix 3 a b = a := by
  rw [mix]
  omega

/-- Between two equal values every code gives that value. -/
theorem mix_self {i : Nat} (hi : i ≤ 3) (a : Nat) : mix i a a = a := by
  rw [mix, ← Nat.add_mul, Nat.add_sub_cancel' hi, Nat.mul_div_cancel_left a (by decide)]

@[simp] theorem interp_zero (a b : Byte) : interp 0 a b = b :=
  BitVec.eq_of_toNat_eq ((interp_toNat 0 a b).trans (mix_zero _ _))

@[simp] theorem interp_three (a b : Byte) : interp 3 a b = a :=
  BitVec.eq_of_toNat_eq ((interp_toNat 3 a b).trans (mix_three _ _))

@[simp] theorem interp_self (i : BitVec 2) (a : Byte) : interp i a a = a :=
  BitVec.eq_of_toNat_eq ((interp_toNat i a a).trans (mix_self (Nat.le_of_lt_succ i.isLt) _))

/-- Settles O20: the sum does not wrap, and each code puts its weights into it. -/
theorem interpolationByCode : Obligations.InterpolationByCode := by
  unfold Obligations.InterpolationByCode
  refine ⟨fun i a b => ⟨interp_toNat i a b, interp_sum_le i a b⟩,
    fun a b => ⟨interp_zero a b, ?_, ?_, interp_three a b⟩⟩
  · calc (interp 1 a b).toNat = (1 * a.toNat + 2 * b.toNat) / 3 := interp_toNat 1 a b
      _ = (a.toNat + 2 * b.toNat) / 3 := by rw [Nat.one_mul]
  · calc (interp 2 a b).toNat = (2 * a.toNat + 1 * b.toNat) / 3 := interp_toNat 2 a b
      _ = (2 * a.toNat + b.toNat) / 3 := by rw [Nat.one_mul]

/-! ## The pixels -/

@[simp] theorem blend_zero (e1 e2 : Rgb) : blend 0 e1 e2 = rgbaOf e2 := by
  simp only [blend, interp_zero]

@[simp] theorem blend_three (e1 e2 : Rgb) : blend 3 e1 e2 = rgbaOf e1 := by
  simp only [blend, interp_three]

@[simp] theorem blend_self (i : BitVec 2) (e : Rgb) : blend i e e = rgbaOf e := by
  simp only [blend, interp_self]

theorem pixel_r_toNat (p : Params) (b : BlockRecord) (r c : Nat) :
    (pixel p b r c).r.toNat = channelOf p b.colour1.toNat b.colour2.toNat b.indices.toNat r c 0 := by
  rw [channelOf, ← codeAt_toNat, ← unpack565_r_toNat, ← unpack565_r_toNat]
  exact interp_toNat _ _ _

theorem pixel_g_toNat (p : Params) (b : BlockRecord) (r c : Nat) :
    (pixel p b r c).g.toNat = channelOf p b.colour1.toNat b.colour2.toNat b.indices.toNat r c 1 := by
  rw [channelOf, ← codeAt_toNat, ← unpack565_g_toNat p.layout565, ← unpack565_g_toNat p.layout565]
  exact interp_toNat _ _ _

theorem pixel_b_toNat (p : Params) (b : BlockRecord) (r c : Nat) :
    (pixel p b r c).b.toNat = channelOf p b.colour1.toNat b.colour2.toNat b.indices.toNat r c 2 := by
  rw [channelOf, ← codeAt_toNat, ← unpack565_b_toNat, ← unpack565_b_toNat]
  exact interp_toNat _ _ _

/-- A reconstructed pixel is opaque (spec/43_reconstructor.md R168). -/
@[simp] theorem pixel_a (p : Params) (b : BlockRecord) (r c : Nat) : (pixel p b r c).a = 255 := rfl

theorem pack32_pixel_toNat (p : Params) (b : BlockRecord) (r c : Nat) :
    (pack32 (pixel p b r c)).toNat =
      packed (channelOf p b.colour1.toNat b.colour2.toNat b.indices.toNat r c 0)
        (channelOf p b.colour1.toNat b.colour2.toNat b.indices.toNat r c 1)
        (channelOf p b.colour1.toNat b.colour2.toNat b.indices.toNat r c 2) := by
  rw [pack32_toNat, pixel_a, pixel_r_toNat, pixel_g_toNat, pixel_b_toNat]
  rfl

/-! ## The tile -/

/-- Entry `4r + c` of a tile is its pixel `(r, c)` (spec/00_scope.md R11). -/
theorem tileOf_getElem (p : Params) (b : BlockRecord) {k : Nat} (hk : k < 16) :
    (tileOf p b)[k] = pack32 (pixel p b (k / 4) (k % 4)) := by
  rw [tileOf, Vector.getElem_ofFn]

theorem tileOf_getElem_pixel (p : Params) (b : BlockRecord) (r c : Fin 4) :
    (tileOf p b)[4 * r.val + c.val] = pack32 (pixel p b r c) := by
  have hrow : (4 * r.val + c.val) / 4 = r := by omega
  have hcol : (4 * r.val + c.val) % 4 = c := by omega
  rw [tileOf_getElem, hrow, hcol]

/-- A tile of equal endpoints has their one colour. -/
theorem tileOf_getElem_of_colours_eq {p : Params} {b : BlockRecord} (h : b.colour1 = b.colour2) {k : Nat}
    (hk : k < 16) : (tileOf p b)[k] = pack32 (rgbaOf (unpack565 p.layout565 b.colour2)) := by
  rw [tileOf_getElem, pixel, h, blend_self]

/-- A tile of codes 0 has the second endpoint's colour. -/
theorem tileOf_getElem_of_indices_zero {p : Params} {b : BlockRecord} (h : b.indices = 0) {k : Nat} (hk : k < 16) :
    (tileOf p b)[k] = pack32 (rgbaOf (unpack565 p.layout565 b.colour2)) := by
  rw [tileOf_getElem, pixel, h, codeAt_zero _ (by omega) (by omega), blend_zero]

/-- A tile of codes 3 has the first endpoint's colour. -/
theorem tileOf_getElem_of_indices_allOnes {p : Params} {b : BlockRecord} (h : b.indices = BitVec.allOnes 32) {k : Nat}
    (hk : k < 16) : (tileOf p b)[k] = pack32 (rgbaOf (unpack565 p.layout565 b.colour1)) := by
  rw [tileOf_getElem, pixel, h, codeAt_allOnes _ (by omega) (by omega)]
  exact congrArg pack32 (blend_three _ _)

/-- An unpacked colour packed again, by its channels (spec/41_color565.md R124). -/
theorem pack32_unpack565_toNat (l : Layout565) (p : Half) :
    (pack32 (rgbaOf (unpack565 l p))).toNat = packed (redOf l p.toNat) (greenOf p.toNat) (blueOf l p.toNat) := by
  rw [pack32_rgbaOf_toNat, unpack565_r_toNat, unpack565_g_toNat, unpack565_b_toNat]

/-! ## RECON -/

theorem recordOperand_colour1_toNat (s : State) :
    (recordOperand s).colour1.toNat = s.regs.blkCol.toNat % 65536 := lowHalf_toNat _

theorem recordOperand_colour2_toNat (s : State) :
    (recordOperand s).colour2.toNat = s.regs.blkCol.toNat / 65536 := highHalf_toNat _

/-- RECON completes with the tile of the block record registers in `TILE`. -/
theorem exec_recon (s : State) : exec .recon s = .next { s with
    regs := { s.regs with tile := tileOf s.params (recordOperand s) },
    pending := none, done := true, err := .ok } := rfl

/-- Settles O21: `decode_eq_ok_iff` for its one word, `exec_recon`, and the channels of each pixel of the record. -/
theorem reconWritesTile : Obligations.ReconWritesTile := by
  unfold Obligations.ReconWritesTile
  refine ⟨fun w => ?_, fun s => ⟨_, exec_recon s, fun r c => ?_⟩⟩
  · have hword : encode .recon = 0x00000003#32 := by decide
    rw [decode_eq_ok_iff, hword, eq_comm]
  · rw [tileOf_getElem_pixel, pack32_pixel_toNat, recordOperand_colour1_toNat, recordOperand_colour2_toNat]
    rfl

/-- Settles O22: in each case the tile has one colour, that of an endpoint. -/
theorem reconCornerCases : Obligations.ReconCornerCases := by
  unfold Obligations.ReconCornerCases
  intro s t hexec
  obtain rfl := Host.Outcome.next.inj ((exec_recon s).symm.trans hexec)
  refine ⟨fun hcol j k => ?_, fun hidx k => ?_, fun hidx k => ?_⟩
  · have hcolours : (recordOperand s).colour1 = (recordOperand s).colour2 := by
      apply BitVec.eq_of_toNat_eq
      rw [recordOperand_colour1_toNat, hcol, recordOperand_colour2_toNat]
    exact (tileOf_getElem_of_colours_eq hcolours j.isLt).trans (tileOf_getElem_of_colours_eq hcolours k.isLt).symm
  · rw [← recordOperand_colour2_toNat, ← pack32_unpack565_toNat]
    exact congrArg BitVec.toNat (tileOf_getElem_of_indices_zero hidx k.isLt)
  · rw [← recordOperand_colour1_toNat, ← pack32_unpack565_toNat]
    exact congrArg BitVec.toNat (tileOf_getElem_of_indices_allOnes hidx k.isLt)

end Sys2Proof.Machine
end

section
/-! PROOF. The image assembler and ASSEMBLE (spec/44_image_assembler.md): the three ways it ends, the byte of each channel
of each pixel, and what of the state it reads. -/

namespace Sys2Proof.Machine

open Sys2Proof.Claims

/-! ## The ways an ASSEMBLE ends -/

/-- Without an image ASSEMBLE clears `OUT_LEN` and completes with the error (spec/44_image_assembler.md R196). -/
theorem assemble_of_noImage (ch : Channels) {s : State} (hnone : s.img.valid = false) :
    assemble ch s = { s with
      regs := { s.regs with outLen := 0 }, pending := none, done := true, err := .noImage } :=
  if_pos hnone

/-- With too little room ASSEMBLE records the bytes it needs and those it has (spec/44_image_assembler.md R196). -/
theorem assemble_of_small {ch : Channels} {s : State} (hvalid : s.img.valid = true)
    (hsmall : s.regs.dstLen.toNat < outLen s.params s.img ch) :
    assemble ch s = { s with
      regs := { s.regs with
        outLen := 0, errReqLo := lowWord (saturate64 (outLen s.params s.img ch)),
        errReqHi := highWord (saturate64 (outLen s.params s.img ch)), errAvail := s.regs.dstLen },
      pending := none, done := true, err := .dstTooSmall } :=
  (if_neg (by simp [hvalid])).trans (if_pos hsmall)

/-- With an image and room for its output ASSEMBLE stores the output (spec/44_image_assembler.md R194). -/
theorem assemble_of_fits {ch : Channels} {s : State} (hvalid : s.img.valid = true)
    (hfits : outLen s.params s.img ch ≤ s.regs.dstLen.toNat) :
    assemble ch s = { s with
      dst := memStoreAll s.dst 0 (imageBytes s.params s.img ch),
      regs := { s.regs with outLen := BitVec.ofNat 32 (outLen s.params s.img ch) },
      pending := none, done := true, err := .ok } :=
  (if_neg (by simp [hvalid])).trans (if_neg (Nat.not_lt.mpr hfits))

/-- A length that fits in `DST_LEN` fits in `OUT_LEN`. -/
theorem assemble_outLen_toNat {ch : Channels} {s : State} (hvalid : s.img.valid = true)
    (hfits : outLen s.params s.img ch ≤ s.regs.dstLen.toNat) :
    (assemble ch s).regs.outLen.toNat = outLen s.params s.img ch := by
  have hlen := s.regs.dstLen.isLt
  rw [assemble_of_fits hvalid hfits, BitVec.toNat_ofNat, Nat.mod_eq_of_lt (by omega)]

/-! ## The channels of a pixel -/

/-- Channel `k` of a colour, in the order R, G, B, A (spec/44_image_assembler.md R195). -/
def Rgba.channel (c : Rgba) : Nat → Byte
  | 0 => c.r
  | 1 => c.g
  | 2 => c.b
  | _ => c.a

theorem pixelBytes_getElem? {ch : Channels} (c : Rgba) {k : Nat} (hk : k < channelCount ch) :
    (pixelBytes ch c)[k]? = some (c.channel k) := by
  cases ch with
  | rgb => match k, hk with | 0, _ | 1, _ | 2, _ => rfl
  | rgba => match k, hk with | 0, _ | 1, _ | 2, _ | 3, _ => rfl

/-- The model's pixel has the channels the statements give it (spec/43_reconstructor.md R166, R168). -/
theorem pixel_channel_toNat (p : Params) (b : BlockRecord) (r c k : Nat) :
    ((pixel p b r c).channel k).toNat = channelOf p b.colour1.toNat b.colour2.toNat b.indices.toNat r c k := by
  match k with
  | 0 => exact pixel_r_toNat p b r c
  | 1 => exact pixel_g_toNat p b r c
  | 2 => exact pixel_b_toNat p b r c
  | _ + 3 => rfl

/-- Byte `k` of a packed colour is its channel `k` (spec/00_scope.md R10). -/
theorem pack32_byte {k : Nat} (c : Rgba) (hk : k < 4) : (pack32 c).toNat / 256 ^ k % 256 = (c.channel k).toNat := by
  have hr := c.r.isLt
  have hg := c.g.isLt
  have hb := c.b.isLt
  have ha := c.a.isLt
  rw [pack32_toNat]
  interval_cases k <;> simp only [Rgba.channel] <;> omega

/-! ## The tile grid -/

theorem tilesAlong_eq (n : Nat) : tilesAlong n = (n + 3) / 4 := rfl

/-- The edge policy leaves a whole number of tiles as it is (spec/44_image_assembler.md R192). -/
theorem outDim_of_mod_four {n : Nat} (e : EdgePolicy) (h : n % 4 = 0) : outDim e n = n := by
  cases e with
  | crop => rfl
  | overdecode =>
    rw [outDim, tilesAlong_eq]
    omega

theorem outWidth_of_mod_four {p : Params} {img : ImageStore} (h : img.width.toNat % 4 = 0) :
    outWidth p img = img.width.toNat :=
  outDim_of_mod_four _ h

theorem outHeight_of_mod_four {p : Params} {img : ImageStore} (h : img.height.toNat % 4 = 0) :
    outHeight p img = img.height.toNat :=
  outDim_of_mod_four _ h

/-- An output coordinate lies in a tile of its axis, under either policy. -/
theorem div_four_lt_tilesAlong {e : EdgePolicy} {n x : Nat} (hx : x < outDim e n) : x / 4 < tilesAlong n := by
  rw [tilesAlong_eq]
  cases e <;> simp only [outDim, tilesAlong_eq] at hx <;> omega

/-- The block of an output pixel is one of the grid (spec/44_image_assembler.md R191, R193). -/
theorem pixelBlock_lt_blockCount {p : Params} {img : ImageStore} {x y : Nat} (hx : x < outWidth p img)
    (hy : y < outHeight p img) :
    y / 4 * tilesAlong img.width.toNat + x / 4 < blockCount img.width.toNat img.height.toNat := by
  have hcol := div_four_lt_tilesAlong hx
  have hrow := div_four_lt_tilesAlong hy
  rw [blockCount, Nat.mul_comm (tilesAlong img.width.toNat)]
  calc y / 4 * tilesAlong img.width.toNat + x / 4
      < y / 4 * tilesAlong img.width.toNat + tilesAlong img.width.toNat := Nat.add_lt_add_left hcol _
    _ = (y / 4 + 1) * tilesAlong img.width.toNat := (Nat.succ_mul _ _).symm
    _ ≤ tilesAlong img.height.toNat * tilesAlong img.width.toNat := Nat.mul_le_mul_right _ hrow

/-- A well-formed image has a record for every output pixel (spec/45_decode.md R227). -/
theorem exists_pixelBlock {p : Params} {img : ImageStore} {x y : Nat} (hwf : storeWf img = true)
    (hvalid : img.valid = true) (hx : x < outWidth p img) (hy : y < outHeight p img) :
    ∃ b, img.blocks[y / 4 * tilesAlong img.width.toNat + x / 4]? = some b := by
  have hk := pixelBlock_lt_blockCount hx hy
  rw [← length_blocks_of_storeWf hwf hvalid] at hk
  exact ⟨_, List.getElem?_eq_getElem hk⟩

theorem imgPixel_of_block {p : Params} {img : ImageStore} {x y : Nat} {b : BlockRecord}
    (hb : img.blocks[y / 4 * tilesAlong img.width.toNat + x / 4]? = some b) :
    imgPixel p img x y = pixel p b (y % 4) (x % 4) := by
  rw [imgPixel, List.getD_eq_getElem?_getD, hb, Option.getD_some]

/-! ## The bytes an ASSEMBLE leaves in DST -/

/-- A stored output holds channel `k` of pixel `(x, y)` at `(y * OW + x) * ch + k` (spec/44_image_assembler.md R195). -/
theorem memByte_memStoreAll_imageBytes {p : Params} {img : ImageStore} {ch : Channels} {m : List Host.Cell}
    {x y k : Nat} (hm : memWf m = true) (hlen : outLen p img ch ≤ 2 ^ 32) (hx : x < outWidth p img)
    (hy : y < outHeight p img) (hk : k < channelCount ch) :
    memByte (memStoreAll m 0 (imageBytes p img ch)) ((y * outWidth p img + x) * channelCount ch + k) =
      (imgPixel p img x y).channel k := by
  have hin := pixelByte_lt_outLen hx hy hk
  rw [← imageBytes_length] at hin hlen
  have hread := memByte_memStoreAll_inside hm ((Nat.zero_add _).trans_le hlen) hin
  rw [Nat.zero_add] at hread
  have hbyte := imageBytes_getElem? hx hy hk
  rw [pixelBytes_getElem? _ hk] at hbyte
  exact hread.trans ((List.getElem_eq_iff hin).mpr hbyte)

/-- After an ASSEMBLE that fits, the byte of channel `k` of an output pixel is that of its block's pixel
(spec/44_image_assembler.md R193, R195). -/
theorem memByte_assemble_dst_pixel {ch : Channels} {s : State} {x y k : Nat} {b : BlockRecord} (hm : memWf s.dst = true)
    (hvalid : s.img.valid = true) (hfits : outLen s.params s.img ch ≤ s.regs.dstLen.toNat)
    (hx : x < outWidth s.params s.img) (hy : y < outHeight s.params s.img) (hk : k < channelCount ch)
    (hb : s.img.blocks[y / 4 * tilesAlong s.img.width.toNat + x / 4]? = some b) :
    memByte (assemble ch s).dst ((y * outWidth s.params s.img + x) * channelCount ch + k) =
      (pixel s.params b (y % 4) (x % 4)).channel k := by
  have hlen := s.regs.dstLen.isLt
  rw [assemble_of_fits hvalid hfits, ← imgPixel_of_block hb]
  exact memByte_memStoreAll_imageBytes hm (by omega) hx hy hk

/-- Settles O31: `assemble_of_fits`, with `memByte_assemble_dst_pixel` inside the output and `memByte_assemble_dst` past
it. -/
theorem assembleWritesTheImage : Obligations.AssembleWritesTheImage := by
  unfold Obligations.AssembleWritesTheImage
  intro ch s hm hwf hvalid hfits
  rw [← outLen_eq_outputLength] at hfits ⊢
  refine ⟨(assemble ch s).dst, (assemble ch s).regs.outLen, ?_, assemble_outLen_toNat hvalid hfits,
    fun x y k hx hy hk => ?_, fun off hoff => memByte_assemble_dst hm (.inl hoff)⟩
  · rw [exec_assembleCmd, assemble_of_fits hvalid hfits]
  · rw [← outWidth_eq_outputWidth] at hx ⊢
    rw [← outHeight_eq_outputHeight] at hy
    rw [← channelCount_eq_bytesPerPixel] at hk ⊢
    obtain ⟨b, hb⟩ := exists_pixelBlock hwf hvalid hx hy
    exact ⟨b, hb, by rw [memByte_assemble_dst_pixel hm hvalid hfits hx hy hk hb, pixel_channel_toNat]⟩

/-- Settles O32: `assemble_of_noImage` and `assemble_of_small`, whose two words hold the saturated length. -/
theorem assembleFailures : Obligations.AssembleFailures := by
  unfold Obligations.AssembleFailures
  refine ⟨fun ch s hnone => (exec_assembleCmd ch s).trans (congrArg _ (assemble_of_noImage ch hnone)),
    fun ch s hvalid hsmall => ?_⟩
  rw [← outLen_eq_outputLength] at hsmall ⊢
  refine ⟨_, _, (exec_assembleCmd ch s).trans (congrArg _ (assemble_of_small hvalid hsmall)), ?_⟩
  rw [lowWord_add_highWord, saturate64_toNat]

/-! ## Tiles row by row -/

/-- Byte `k` of a tile's entry is channel `k` of its pixel. -/
theorem tileOf_byte {j k : Nat} (p : Params) (b : BlockRecord) (hj : j < 16) (hk : k < 4) :
    (tileOf p b)[j].toNat / 256 ^ k % 256 = ((pixel p b (j / 4) (j % 4)).channel k).toNat := by
  rw [tileOf_getElem, pack32_byte _ hk]

theorem channelCount_le_four (ch : Channels) : channelCount ch ≤ 4 := by
  cases ch <;> decide

/-- The output of a row of tiles has four scanlines of the image's width (spec/44_image_assembler.md R192). -/
theorem outLen_of_tileRow {ch : Channels} {p : Params} {img : ImageStore} {w : Nat} (hwidth : img.width.toNat = w)
    (hheight : img.height.toNat = 4) (hwhole : w % 4 = 0) : outLen p img ch = w * 4 * channelCount ch := by
  rw [outLen, outWidth_of_mod_four (hwidth ▸ hwhole), outHeight_of_mod_four (by rw [hheight]), hwidth, hheight]

/-- In an image that is a row of tiles, output row `r` holds row `r` of tile `i` from column `4 * i` on
(spec/44_image_assembler.md R197). -/
theorem memByte_assemble_dst_tileRow {ch : Channels} {s : State} {w i r c k : Nat} {b : BlockRecord}
    (hm : memWf s.dst = true) (hvalid : s.img.valid = true) (hwidth : s.img.width.toNat = w)
    (hheight : s.img.height.toNat = 4) (hwhole : w % 4 = 0) (hfits : outLen s.params s.img ch ≤ s.regs.dstLen.toNat)
    (hx : 4 * i + c < w) (hr : r < 4) (hc : c < 4) (hk : k < channelCount ch) (hb : s.img.blocks[i]? = some b) :
    (memByte (assemble ch s).dst ((r * w + (4 * i + c)) * channelCount ch + k)).toNat =
      ((tileOf s.params b)[4 * r + c]'(by omega)).toNat / 256 ^ k % 256 := by
  have how : outWidth s.params s.img = w := (outWidth_of_mod_four (hwidth ▸ hwhole)).trans hwidth
  have hoh : outHeight s.params s.img = 4 := (outHeight_of_mod_four (by rw [hheight])).trans hheight
  have hblock : r / 4 * tilesAlong s.img.width.toNat + (4 * i + c) / 4 = i := by
    rw [Nat.div_eq_of_lt hr, Nat.zero_mul]
    omega
  have hbyte := memByte_assemble_dst_pixel hm hvalid hfits (how ▸ hx) (hoh ▸ hr) hk (hblock ▸ hb)
  have hrow : (4 * r + c) / 4 = r % 4 := by omega
  have hcol : (4 * r + c) % 4 = (4 * i + c) % 4 := by omega
  rw [how] at hbyte
  rw [hbyte, tileOf_byte _ _ _ (hk.trans_le (channelCount_le_four ch)), hrow, hcol]

/-- Settles O33: `memByte_assemble_dst_tileRow` for a row of one tile and for a row of two. -/
theorem assembledTilesReadRowByRow : Obligations.AssembledTilesReadRowByRow := by
  unfold Obligations.AssembledTilesReadRowByRow
  simp only [← channelCount_eq_bytesPerPixel]
  refine ⟨fun ch s b t hm hvalid hw hh hblocks hroom hexec => ?_,
    fun ch s b0 b1 t hm hvalid hw hh hblocks hroom hexec => ?_⟩
  · cases (exec_assembleCmd ch s).symm.trans hexec
    have hwidth : s.img.width.toNat = 4 := congrArg BitVec.toNat hw
    have hheight : s.img.height.toNat = 4 := congrArg BitVec.toNat hh
    have hlen : outLen s.params s.img ch = 16 * channelCount ch := outLen_of_tileRow hwidth hheight rfl
    have hfits := hlen.trans_le hroom
    refine ⟨(assemble_outLen_toNat hvalid hfits).trans hlen, fun q k hk => ?_⟩
    have hrow : q.val / 4 < 4 := by omega
    have hcol : q.val % 4 < 4 := by omega
    have hpos : q.val / 4 * 4 + (4 * 0 + q.val % 4) = q.val := by omega
    have hentry : 4 * (q.val / 4) + q.val % 4 = q.val := by omega
    have hbyte := memByte_assemble_dst_tileRow hm hvalid hwidth hheight rfl hfits (i := 0) (b := b) (by omega) hrow hcol
      hk (by rw [hblocks]; rfl)
    simp only [hpos, hentry] at hbyte
    exact hbyte
  · cases (exec_assembleCmd ch s).symm.trans hexec
    have hwidth : s.img.width.toNat = 8 := congrArg BitVec.toNat hw
    have hheight : s.img.height.toNat = 4 := congrArg BitVec.toNat hh
    have hlen : outLen s.params s.img ch = 32 * channelCount ch := outLen_of_tileRow hwidth hheight rfl
    have hfits := hlen.trans_le hroom
    refine ⟨(assemble_outLen_toNat hvalid hfits).trans hlen, fun y c k hk => ⟨?_, ?_⟩⟩
    · have hbyte := memByte_assemble_dst_tileRow hm hvalid hwidth hheight rfl hfits (i := 0) (b := b0) (by omega) y.isLt
        c.isLt hk (by rw [hblocks]; rfl)
      rwa [Nat.mul_zero, Nat.zero_add] at hbyte
    · exact memByte_assemble_dst_tileRow hm hvalid hwidth hheight rfl hfits (i := 1) (by omega) y.isLt c.isLt hk
        (by rw [hblocks]; rfl)

/-! ## What an ASSEMBLE reads -/

/-- The output is fixed by its dimensions and its pixels. -/
theorem imageBytes_congr {p p' : Params} {img img' : ImageStore} (ch : Channels)
    (hw : outWidth p img = outWidth p' img') (hh : outHeight p img = outHeight p' img')
    (hpix : ∀ x y, imgPixel p img x y = imgPixel p' img' x y) : imageBytes p img ch = imageBytes p' img' ch := by
  simp only [imageBytes, scanline, hw, hh, hpix]

/-- ASSEMBLE reads of the parameters and the image store whether there is an image and what its output is. -/
theorem assemble_with_params_img {ch : Channels} {s : State} {p : Params} {img : ImageStore}
    (hvalid : img.valid = s.img.valid) (hbytes : imageBytes p img ch = imageBytes s.params s.img ch) :
    assemble ch { s with params := p, img := img } = { assemble ch s with params := p, img := img } := by
  have hlen : outLen p img ch = outLen s.params s.img ch := by
    rw [← imageBytes_length, hbytes, imageBytes_length]
  rcases assemble_cases ch s with ⟨hnone, ha⟩ | ⟨hsome, hsmall, ha⟩ | ⟨hsome, hfits, ha⟩ <;> rw [ha]
  · exact assemble_of_noImage ch (hvalid.trans hnone)
  · rw [← hlen] at hsmall ⊢
    exact assemble_of_small (s := { s with params := p, img := img }) (hvalid.trans hsome) hsmall
  · rw [← hlen] at hfits ⊢
    rw [← hbytes]
    exact assemble_of_fits (s := { s with params := p, img := img }) (hvalid.trans hsome) hfits

/-- ASSEMBLE reads neither `WIDTH` nor `HEIGHT`. -/
theorem assemble_with_dimensions (ch : Channels) (s : State) (w h : Word) :
    assemble ch { s with regs := { s.regs with width := w, height := h } } =
      { assemble ch s with regs := { (assemble ch s).regs with width := w, height := h } } := by
  rcases assemble_cases ch s with ⟨hnone, ha⟩ | ⟨hvalid, hsmall, ha⟩ | ⟨hvalid, hfits, ha⟩ <;> rw [ha]
  · exact assemble_of_noImage ch hnone
  · exact assemble_of_small (s := { s with regs := { s.regs with width := w, height := h } }) hvalid hsmall
  · exact assemble_of_fits (s := { s with regs := { s.regs with width := w, height := h } }) hvalid hfits

@[simp] theorem assemble_img (ch : Channels) (s : State) : (assemble ch s).img = s.img := by
  obtain ⟨-, -, himg, -⟩ := assemble_leaves_results ch s
  exact himg

/-- Settles O34: the policy enters by the two output dimensions alone, and leaves multiples of 4 as they are. -/
theorem edgePoliciesAgreeOnWholeTiles : Obligations.EdgePoliciesAgreeOnWholeTiles := by
  unfold Obligations.EdgePoliciesAgreeOnWholeTiles
  intro ch s e hw hh
  refine ⟨_, exec_assembleCmd ch s, (exec_assembleCmd ..).trans (congrArg _ ?_)⟩
  have hbytes : imageBytes { s.params with edgePolicy := e } s.img ch = imageBytes s.params s.img ch :=
    imageBytes_congr ch ((outWidth_of_mod_four hw).trans (outWidth_of_mod_four hw).symm)
      ((outHeight_of_mod_four hh).trans (outHeight_of_mod_four hh).symm) fun _ _ => rfl
  calc assemble ch { s with params := { s.params with edgePolicy := e } }
      = { assemble ch s with params := { s.params with edgePolicy := e }, img := s.img } :=
        assemble_with_params_img rfl hbytes
    _ = { assemble ch s with params := { s.params with edgePolicy := e } } := by rw [← assemble_img ch s]

/-- The image store with another variant and other alpha payloads. -/
def ImageStore.withPayload (img : ImageStore) (v : Variant) (f : BlockRecord → DWord) : ImageStore :=
  { img with variant := v, blocks := img.blocks.map fun b => { b with alpha := f b } }

/-- A pixel of the image reads neither the variant nor an alpha payload (spec/43_reconstructor.md R168). -/
theorem imgPixel_withPayload (p : Params) (img : ImageStore) (v : Variant) (f : BlockRecord → DWord) (x y : Nat) :
    imgPixel p (img.withPayload v f) x y = imgPixel p img x y := by
  simp only [imgPixel, ImageStore.withPayload, List.getD_eq_getElem?_getD, List.getElem?_map]
  cases img.blocks[y / 4 * tilesAlong img.width.toNat + x / 4]? <;> rfl

theorem imageBytes_withPayload (p : Params) (img : ImageStore) (ch : Channels) (v : Variant) (f : BlockRecord → DWord) :
    imageBytes p (img.withPayload v f) ch = imageBytes p img ch :=
  imageBytes_congr ch rfl rfl (imgPixel_withPayload p img v f)

/-- Settles O35, reading by reading: SRC, then the dimension registers, then the image store. -/
theorem assembleIgnoresPayloadAndVariant : Obligations.AssembleIgnoresPayloadAndVariant := by
  unfold Obligations.AssembleIgnoresPayloadAndVariant
  intro ch s w h m v f
  refine ⟨_, exec_assembleCmd ch s, (exec_assembleCmd ..).trans (congrArg _ ?_)⟩
  have himg : assemble ch { s with img := s.img.withPayload v f } =
      { assemble ch s with img := s.img.withPayload v f } := by
    refine (assemble_with_params_img (img := s.img.withPayload v f) rfl (imageBytes_withPayload ..)).trans ?_
    rw [← assemble_params ch s]
  have hdim := assemble_with_dimensions ch { s with img := s.img.withPayload v f } w h
  rw [himg] at hdim
  refine (assemble_with_src ch { s with
    regs := { s.regs with width := w, height := h }, img := s.img.withPayload v f } m).trans ?_
  rw [hdim]
  rfl

end Sys2Proof.Machine
end

section
/-! PROOF. DECODE (spec/45_decode.md): the four ways it ends, the sizes it records, the image store it leaves, what it reads,
and that no other step stores an image. -/

namespace Sys2Proof.Machine

open Sys2Proof.Claims

theorem exec_decodeCmd (v : Variant) (s : State) : exec (decodeCmd v) s = .next (decodeImage v s) := by cases v <;> rfl

/-! ## The counts of the statements -/

theorem blockCount_eq_tileCount (s : State) : blockCount s.regs.width.toNat s.regs.height.toNat = tileCount s := rfl

theorem requiredBytes_eq_tileCount_mul (v : Variant) (s : State) :
    requiredBytes v s.regs.width.toNat s.regs.height.toNat = tileCount s * bytesPerBlock v := by
  rw [requiredBytes, blockCount_eq_tileCount, blockSize_eq_bytesPerBlock]

theorem dimensions_toNat_eq_zero_iff (s : State) :
    (s.regs.width.toNat = 0 ∧ s.regs.height.toNat = 0) ↔ (s.regs.width = 0 ∧ s.regs.height = 0) :=
  and_congr (BitVec.toNat_inj (y := 0)) (BitVec.toNat_inj (y := 0))

theorem overCapacity_eq_false_iff {p : Params} {n : Nat} :
    overCapacity p n = false ↔ ∀ m, p.maxBlocks = some m → n ≤ m := by
  rw [← Bool.not_eq_true, overCapacity_iff]
  simp

/-- The blocks that lie below `SRC_LEN` are fewer than 2^29 (spec/45_decode.md R226). -/
theorem tileCount_le_of_fits {v : Variant} {s : State} (hlen : tileCount s * bytesPerBlock v ≤ s.regs.srcLen.toNat) :
    tileCount s ≤ s.regs.srcLen.toNat / 8 ∧ s.regs.srcLen.toNat / 8 < 2 ^ 29 := by
  have hword := s.regs.srcLen.isLt
  have hblocks : tileCount s * 8 ≤ tileCount s * bytesPerBlock v := Nat.mul_le_mul_left _ (by cases v <;> decide)
  omega

/-- A grid with a dimension 0 has no tile (spec/45_decode.md R224). -/
theorem tileCount_eq_zero {s : State} (h : s.regs.width = 0 ∨ s.regs.height = 0) : tileCount s = 0 := by
  rcases h with h | h <;> simp [tileCount, h]

/-! ## The ways a DECODE ends -/

/-- Without a dimension DECODE clears the store and completes with the error (spec/45_decode.md R224). -/
theorem decodeImage_of_zero (v : Variant) {s : State} (hzero : s.regs.width = 0 ∧ s.regs.height = 0) :
    decodeImage v s = { s with
      img := ImageStore.empty, pending := none, done := true, err := .invalidInput } :=
  if_pos hzero

/-- With too few source bytes DECODE clears the store and records the sizes (spec/45_decode.md R221, R223, R225). -/
theorem decodeImage_of_short {v : Variant} {s : State} (hdim : ¬(s.regs.width = 0 ∧ s.regs.height = 0))
    (hshort : s.regs.srcLen.toNat < tileCount s * bytesPerBlock v) :
    decodeImage v s = { s with
      img := ImageStore.empty, regs := decodeInfo v s.regs, pending := none, done := true, err := .invalidData } := by
  rw [← requiredBytes_eq_tileCount_mul] at hshort
  exact (if_neg hdim).trans (if_pos hshort)

/-- With more blocks than the capacity DECODE clears the store and records the sizes (spec/45_decode.md R226). -/
theorem decodeImage_of_over {v : Variant} {s : State} (hdim : ¬(s.regs.width = 0 ∧ s.regs.height = 0))
    (hlen : tileCount s * bytesPerBlock v ≤ s.regs.srcLen.toNat) (hover : overCapacity s.params (tileCount s) = true) :
    decodeImage v s = { s with
      img := ImageStore.empty, regs := decodeInfo v s.regs, pending := none, done := true, err := .capacity } := by
  rw [← requiredBytes_eq_tileCount_mul] at hlen
  exact (if_neg hdim).trans ((if_neg (Nat.not_lt.mpr hlen)).trans (if_pos hover))

/-- A DECODE that passes its checks stores its image and records the sizes (spec/45_decode.md R221). -/
theorem decodeImage_of_fits {v : Variant} {s : State} (hdim : ¬(s.regs.width = 0 ∧ s.regs.height = 0))
    (hlen : tileCount s * bytesPerBlock v ≤ s.regs.srcLen.toNat) (hfree : overCapacity s.params (tileCount s) = false) :
    decodeImage v s = { s with
      img := decodedImage v s, regs := decodeInfo v s.regs, pending := none, done := true, err := .ok } := by
  rw [← requiredBytes_eq_tileCount_mul] at hlen
  rw [← blockCount_eq_tileCount] at hfree
  exact (if_neg hdim).trans ((if_neg (Nat.not_lt.mpr hlen)).trans (if_neg (by simp [hfree])))

/-- A DECODE succeeds and holds its image, or fails and holds none (spec/45_decode.md R221, R225). -/
theorem decodeImage_img_cases (v : Variant) (s : State) :
    ((decodeImage v s).err = .ok ∧ (decodeImage v s).img = decodedImage v s) ∨
    ((decodeImage v s).err ≠ .ok ∧ (decodeImage v s).img = ImageStore.empty) := by
  rcases decodeImage_cases v s with ⟨_, h⟩ | ⟨_, _, h⟩ | ⟨_, _, _, h⟩ | ⟨_, _, _, h⟩ <;> rw [h]
  · exact .inr ⟨nofun, rfl⟩
  · exact .inr ⟨nofun, rfl⟩
  · exact .inr ⟨nofun, rfl⟩
  · exact .inl ⟨rfl, rfl⟩

theorem decodeImage_valid_iff (v : Variant) (s : State) :
    (decodeImage v s).img.valid = true ↔ (decodeImage v s).err = .ok := by
  rcases decodeImage_img_cases v s with ⟨herr, himg⟩ | ⟨herr, himg⟩
  · simp [himg, herr, decodedImage]
  · simp [himg, herr, ImageStore.empty]

/-! ## The sizes it records -/

/-- `ERR_PIX` holds `w * h`, which does not wrap (spec/45_decode.md R223). -/
theorem decodeInfo_errPix_toNat (v : Variant) (r : Regs) :
    (decodeInfo v r).errPixLo.toNat + 2 ^ 32 * (decodeInfo v r).errPixHi.toNat = r.width.toNat * r.height.toNat := by
  have hpix : r.width.toNat * r.height.toNat < 2 ^ 64 :=
    (Nat.mul_lt_mul'' r.width.isLt r.height.isLt).trans_eq (Nat.pow_add 2 32 32).symm
  rw [decodeInfo_errPixLo, decodeInfo_errPixHi, lowWord_add_highWord, BitVec.toNat_ofNat, Nat.mod_eq_of_lt hpix]

/-- `ERR_REQ` holds the required bytes, saturated (spec/45_decode.md R221, R223). -/
theorem decodeInfo_errReq_toNat (v : Variant) (s : State) :
    (decodeInfo v s.regs).errReqLo.toNat + 2 ^ 32 * (decodeInfo v s.regs).errReqHi.toNat =
      min (tileCount s * bytesPerBlock v) (2 ^ 64 - 1) := by
  rw [decodeInfo_errReqLo, decodeInfo_errReqHi, lowWord_add_highWord, saturate64_toNat, requiredBytes_eq_tileCount_mul]

/-- Past the first check DECODE records the sizes, however it ends (spec/45_decode.md R223). -/
theorem decodeImage_regs (v : Variant) {s : State} (hdim : ¬(s.regs.width = 0 ∧ s.regs.height = 0)) :
    (decodeImage v s).regs = decodeInfo v s.regs := by
  rcases decodeImage_cases v s with ⟨hzero, _⟩ | ⟨_, _, h⟩ | ⟨_, _, _, h⟩ | ⟨_, _, _, h⟩
  · exact absurd hzero hdim
  all_goals rw [h]; rfl

/-! ## The statements about the sizes and the errors -/

/-- Settles O23: `decodeImage_of_fits`, the required bytes unsaturated since they lie below `SRC_LEN`, and each block of
the grid by `isBlockAt_parseBlock`. -/
theorem decodeStoresTheGrid : Obligations.DecodeStoresTheGrid := by
  unfold Obligations.DecodeStoresTheGrid
  intro v s hdim hlen hfree
  rw [dimensions_toNat_eq_zero_iff] at hdim
  have hword := s.regs.srcLen.isLt
  refine ⟨_, _, _, _, _, (exec_decodeCmd v s).trans
      (congrArg _ (decodeImage_of_fits hdim hlen (overCapacity_eq_false_iff.mpr hfree))),
    decodeInfo_errPix_toNat v s.regs, ?_, parseGrid_length _ _ _, fun k b hb => ?_⟩
  · exact (decodeInfo_errReq_toNat v s).trans (Nat.min_eq_left (by omega))
  · obtain ⟨-, rfl⟩ := parseGrid_getElem? hb
    rw [← blockSize_eq_bytesPerBlock]
    exact isBlockAt_parseBlock v s.src _

/-- Settles O24: `decodeImage_of_short`, whose registers hold the sizes. -/
theorem decodeTooShortIsInvalidData : Obligations.DecodeTooShortIsInvalidData := by
  unfold Obligations.DecodeTooShortIsInvalidData
  intro v s hdim hshort
  rw [dimensions_toNat_eq_zero_iff] at hdim
  exact ⟨_, _, _, _, (exec_decodeCmd v s).trans (congrArg _ (decodeImage_of_short hdim hshort)),
    decodeInfo_errPix_toNat v s.regs, decodeInfo_errReq_toNat v s⟩

/-- Settles O25: `decodeImage_regs` past the first check, `decodeImage_of_zero` at it, and the operands by the frame. -/
theorem decodeRecordsSizes : Obligations.DecodeRecordsSizes := by
  unfold Obligations.DecodeRecordsSizes
  intro v s t h
  cases (exec_decodeCmd v s).symm.trans h
  have hkept := decodeImage_hostSideKept v s
  refine ⟨fun hdim => ?_, fun hzero => ?_, hkept.width, hkept.height⟩
  · rw [dimensions_toNat_eq_zero_iff] at hdim
    rw [decodeImage_regs v hdim]
    exact ⟨decodeInfo_errPix_toNat v s.regs, decodeInfo_errReq_toNat v s, rfl⟩
  · rw [decodeImage_of_zero v ((dimensions_toNat_eq_zero_iff s).mp hzero)]
    exact ⟨rfl, rfl⟩

/-- Settles O26: `decodeImage_of_zero`, and a grid without a tile, which needs no byte and is within every capacity. -/
theorem degenerateDimensions : Obligations.DegenerateDimensions := by
  unfold Obligations.DegenerateDimensions
  refine ⟨fun v s hzero => (exec_decodeCmd v s).trans (congrArg _ (decodeImage_of_zero v hzero)), fun v s hone => ?_⟩
  have hdim : ¬(s.regs.width = 0 ∧ s.regs.height = 0) := by tauto
  have hcount : tileCount s = 0 := tileCount_eq_zero (by tauto)
  have hreq : requiredBytes v s.regs.width.toNat s.regs.height.toNat = 0 := by
    rw [requiredBytes_eq_tileCount_mul, hcount, Nat.zero_mul]
  have hd := decodeImage_of_fits (v := v) hdim (by simp [hcount])
    (overCapacity_eq_false_iff.mpr fun m _ => hcount ▸ Nat.zero_le m)
  refine ⟨_, exec_decodeCmd v s, ?_⟩
  rw [hd]
  refine ⟨rfl, ?_, ?_, ?_⟩
  · rw [decodedImage, blockCount_eq_tileCount, hcount]
    rfl
  · rw [decodeInfo_errReqLo, hreq]
    rfl
  · rw [decodeInfo_errReqHi, hreq]
    rfl

/-- Settles O27: `decodeImage_of_over`, and that a grid below `SRC_LEN` has fewer than 2^29 blocks. -/
theorem capacityError : Obligations.CapacityError := by
  unfold Obligations.CapacityError
  refine ⟨fun v s m hcap hdim hlen hover => ⟨_, exec_decodeCmd v s, ?_⟩, fun v s t h hcap => ?_,
    fun v s hlen => tileCount_le_of_fits hlen⟩
  · rw [decodeImage_of_over hdim hlen ((overCapacity_iff _ _).mpr ⟨m, hcap, hover⟩)]
    exact ⟨rfl, rfl, rfl⟩
  · cases (exec_decodeCmd v s).symm.trans h
    rcases decodeImage_cases v s with ⟨_, hd⟩ | ⟨_, _, hd⟩ | ⟨_, hlen, hover, hd⟩ | ⟨_, _, _, hd⟩
    · rw [hd]; nofun
    · rw [hd]; nofun
    · exfalso
      rw [requiredBytes_eq_tileCount_mul] at hlen
      rw [blockCount_eq_tileCount] at hover
      obtain ⟨m, hm, hlt⟩ := (overCapacity_iff _ _).mp hover
      obtain ⟨hle, hmax⟩ := tileCount_le_of_fits hlen
      rcases hcap with hnone | ⟨m', hm', hbig⟩
      · cases hnone.symm.trans hm
      · cases hm'.symm.trans hm
        omega
    · rw [hd]; nofun

/-- Settles O29: the three ways of ending, each at its boundary. -/
theorem decodeTestableProperties : Obligations.DecodeTestableProperties := by
  unfold Obligations.DecodeTestableProperties
  refine ⟨fun v s hw _ hcap hlen => ?_, fun v s hw _ hshort => ?_, fun v s n m hw hh => ?_⟩
  · have hd := decodeImage_of_fits (fun ⟨hzero, _⟩ => hw hzero) hlen.ge
      (overCapacity_eq_false_iff.mpr fun m hm => by cases hcap.symm.trans hm)
    exact ⟨_, (exec_decodeCmd v s).trans (congrArg _ hd), rfl, rfl, rfl⟩
  · have hd := decodeImage_of_short (v := v) (fun ⟨hzero, _⟩ => hw hzero) (by omega)
    exact ⟨_, (exec_decodeCmd v s).trans (congrArg _ hd), rfl⟩
  · exact ⟨_, (exec_decodeCmd v _).trans (congrArg _ (decodeImage_of_zero v ⟨hw, hh⟩)), rfl⟩

/-! ## Who stores an image -/

/-- Bit 2 of `STATUS` is `IMG_VALID` (spec/10_state.md R24). -/
theorem statusOf_getLsbD_two (busy done valid : Bool) (code : ErrCode) :
    (statusOf busy done valid code).getLsbD 2 = valid := by
  cases code <;> (revert busy done valid; decide)

theorem readReg_status_imgValid (s : State) : (readReg s .status).getLsbD 2 = s.img.valid :=
  statusOf_getLsbD_two s.busy s.done s.img.valid s.err

/-- A command other than DECODE leaves the image store (spec/10_state.md R30). -/
theorem exec_img {i : Instr} {s t : State} (h : exec i s = .next t) : (∃ v, i = decodeCmd v) ∨ t.img = s.img := by
  cases i with
  | cvt565 | recon => cases h; exact .inr rfl
  | parseblkDxt1 | parseblkDxt3 => cases h; exact .inr (by simp [parseBlk_leaves_results])
  | decodeDxt1 => exact .inl ⟨.noAlpha, rfl⟩
  | decodeDxt3 => exact .inl ⟨.alpha, rfl⟩
  | assembleRgb | assembleRgba => cases h; exact .inr (assemble_img _ s)

@[simp] theorem writeReg_img (s : State) (r : RegName) (v : Word) : (writeReg s r v).img = s.img := by
  cases r <;> rfl

/-- A host action leaves the image store, or is the reset, which clears it (spec/70_reset_and_hazards.md R280, R284). -/
theorem hostAct_img {a : HostAct} {s t : State} (h : hostAct a s = .next t) :
    t.img = s.img ∨ t.img = ImageStore.empty := by
  cases a with
  | regRead bits off =>
    rcases hostRegRead_cases bits off s with ⟨_, hr⟩ | ⟨_, _, _, _, hr⟩ | ⟨_, _, _, hr⟩ <;> cases hr.symm.trans h <;>
      exact .inl rfl
  | regWrite bits off v =>
    rcases hostRegWrite_cases bits off v s with ⟨_, hw⟩ | ⟨r, _, _, _, hw⟩ <;> cases hw.symm.trans h
    · exact .inl rfl
    · exact .inl (writeReg_img s r v)
  | poll => rcases hostPoll_cases s with ⟨_, hp⟩ | ⟨_, hp⟩ <;> cases hp.symm.trans h <;> exact .inl rfl
  | srcWrite off bytes => exact .inl (hostSrcWrite_regs_img h).2
  | dstRead off n =>
    rcases hostDstRead_cases off n s with ⟨_, _, hr⟩ | ⟨_, _, hr⟩ | ⟨_, hr⟩ <;> cases hr.symm.trans h <;> exact .inl rfl
  | dstWrite off bytes =>
    rcases hostDstWrite_cases off bytes s with ⟨_, hw⟩ | ⟨_, _, hw⟩ | ⟨_, _, hw⟩ <;> cases hw.symm.trans h <;>
      exact .inl rfl
  | reset => cases h; exact .inr rfl

/-- A completion leaves the image store, or is that of a DECODE. -/
theorem engineStep_img {w : Word} {s t : State} (h : engineStep w s = .next t) :
    (∃ v, decode w = .ok (decodeCmd v) ∧ t = decodeImage v s) ∨ t.img = s.img := by
  rcases engineStep_cases w s with ⟨i, hi, he⟩ | ⟨_, _, he⟩
  · rcases exec_img (he.symm.trans h) with ⟨v, rfl⟩ | himg
    · cases (exec_decodeCmd v s).symm.trans (he.symm.trans h)
      exact .inl ⟨v, hi, rfl⟩
    · exact .inr himg
  · cases he.symm.trans h
    exact .inr rfl

/-- A step leaves the image store, clears it, or is the completion of a DECODE. -/
theorem step_img_cases {s t : State} (h : step s = .next t) :
    t.img = s.img ∨ t.img = ImageStore.empty ∨
      ∃ w v, EngineMoves s w ∧ decode w = .ok (decodeCmd v) ∧ t = decodeImage v s := by
  rcases step_cases s with ⟨_, _, hs⟩ | ⟨rest, _, _, hs⟩ | ⟨w, hclean, hp, hturn, hs⟩ | ⟨a, rest, _, _, _, hs⟩ |
    ⟨_, _, _, hs⟩
  · cases hs.symm.trans h
  · cases hs.symm.trans h
    exact .inr (.inl rfl)
  · rcases engineStep_img (hs.symm.trans h) with ⟨v, hv, rfl⟩ | himg
    · exact .inr (.inr ⟨w, v, ⟨hclean, hp, ((engineTurn_iff s).mp hturn).2⟩, hv, rfl⟩)
    · exact .inl himg
  · exact (hostAct_img (s := s.advance rest) (hs.symm.trans h)).imp id .inl
  · cases hs.symm.trans h
    exact .inl rfl

/-- Settles O28: `decodeImage_img_cases` for the store a DECODE leaves, and `step_img_cases` for who fills it. -/
theorem failedDecodeLeavesNoImage : Obligations.FailedDecodeLeavesNoImage := by
  unfold Obligations.FailedDecodeLeavesNoImage
  refine ⟨fun v s t h herr => ?_, fun ch s hnone => ?_, fun s t h hnone hvalid => ?_, fun v s t h => ?_⟩
  · cases (exec_decodeCmd v s).symm.trans h
    have himg : (decodeImage v s).img = ImageStore.empty :=
      ((decodeImage_img_cases v s).resolve_left fun ⟨hok, _⟩ => herr hok).2
    rw [readReg_status_imgValid]
    simp only [readReg, himg]
    decide
  · exact ⟨_, (exec_assembleCmd ch s).trans (congrArg _ (assemble_of_noImage ch hnone)), rfl⟩
  · rcases step_img_cases h with himg | himg | ⟨w, v, hmoves, hdecode, rfl⟩
    · simp [himg, hnone] at hvalid
    · simp [himg, ImageStore.empty] at hvalid
    · exact ⟨w, v, hmoves, hdecode, (decodeImage_valid_iff v s).mp hvalid⟩
  · cases (exec_decodeCmd v s).symm.trans h
    exact decodeImage_valid_iff v s

/-! ## What a DECODE reads -/

/-- Settles O30: both states pass or fail the same checks, and their grids are of the same bytes. -/
theorem decodeDependsOnlyOnItsOperands : Obligations.DecodeDependsOnlyOnItsOperands := by
  unfold Obligations.DecodeDependsOnlyOnItsOperands
  intro v s u hw hh hlen hcap hbytes
  refine ⟨_, _, exec_decodeCmd v s, exec_decodeCmd v u, ?_⟩
  have hcount : tileCount s = tileCount u := by rw [tileCount, tileCount, hw, hh]
  have hover : overCapacity s.params = overCapacity u.params := by
    funext n
    rw [overCapacity, overCapacity, hcap]
  have himg : decodedImage v s = decodedImage v u := by
    rw [← blockSize_eq_bytesPerBlock] at hbytes
    rw [decodedImage, decodedImage, blockCount_eq_tileCount, blockCount_eq_tileCount, parseGrid_congr hbytes, hw, hh,
      hcount]
  have hcases := decodeImage_cases v s
  rw [requiredBytes_eq_tileCount_mul, blockCount_eq_tileCount, hcount, hover, hw, hh, hlen, himg] at hcases
  rcases hcases with ⟨hzero, hs⟩ | ⟨hdim, hshort, hs⟩ | ⟨hdim, hfits, hfull, hs⟩ | ⟨hdim, hfits, hfree, hs⟩
  · rw [hs, decodeImage_of_zero v hzero]
    exact ⟨rfl, rfl⟩
  · rw [hs, decodeImage_of_short hdim hshort]
    exact ⟨rfl, rfl⟩
  · rw [hs, decodeImage_of_over hdim hfits hfull]
    exact ⟨rfl, rfl⟩
  · rw [hs, decodeImage_of_fits hdim hfits hfree]
    exact ⟨rfl, rfl⟩

end Sys2Proof.Machine
end

section
/-! PROOF. Completion and errors (spec/60_exceptions.md R250 to R265): every command ends in one completion, a failing
one has its listed effects alone, the code is that of the first check that fails, and an ended run stays as it is. -/

namespace Sys2Proof.Machine

open Sys2Proof.Claims

/-! ## Completion -/

/-- `t` is one completion of a state with the pending command, `DONE` and `ERR` of `s` (spec/60_exceptions.md R252). -/
def CompletedFrom (s t : State) : Prop :=
  ∃ (u : State) (c : ErrCode), t = u.complete c ∧ u.pending = s.pending ∧ u.done = s.done ∧ u.err = s.err

/-- The effects of a command before its completion are on the registers, the image store and DST. -/
theorem completedFrom_complete (s : State) (regs : Regs) (img : ImageStore) (dst : List Host.Cell) (c : ErrCode) :
    CompletedFrom s (({ s with regs := regs, img := img, dst := dst }).complete c) :=
  ⟨_, c, rfl, rfl, rfl, rfl⟩

theorem CompletedFrom.pending {s t : State} (h : CompletedFrom s t) : t.pending = none := by
  obtain ⟨u, c, rfl, -⟩ := h
  rfl

theorem CompletedFrom.done {s t : State} (h : CompletedFrom s t) : t.done = true := by
  obtain ⟨u, c, rfl, -⟩ := h
  rfl

theorem parseBlk_completedFrom (v : Variant) (s : State) : CompletedFrom s (parseBlk v s) := by
  rcases parseBlk_cases v s with ⟨_, h⟩ | ⟨_, h⟩ <;> rw [h] <;> exact completedFrom_complete ..

theorem decodeImage_completedFrom (v : Variant) (s : State) : CompletedFrom s (decodeImage v s) := by
  rcases decodeImage_cases v s with ⟨_, h⟩ | ⟨_, _, h⟩ | ⟨_, _, _, h⟩ | ⟨_, _, _, h⟩ <;> rw [h] <;>
    exact completedFrom_complete ..

theorem assemble_completedFrom (ch : Channels) (s : State) : CompletedFrom s (assemble ch s) := by
  rcases assemble_cases ch s with ⟨_, h⟩ | ⟨_, _, h⟩ | ⟨_, _, h⟩ <;> rw [h] <;> exact completedFrom_complete ..

theorem exec_completes (i : Instr) (s : State) : ∃ t, exec i s = .next t ∧ CompletedFrom s t := by
  cases i with
  | cvt565 | recon => exact ⟨_, rfl, completedFrom_complete ..⟩
  | parseblkDxt1 | parseblkDxt3 => exact ⟨_, rfl, parseBlk_completedFrom _ s⟩
  | decodeDxt1 | decodeDxt3 => exact ⟨_, rfl, decodeImage_completedFrom _ s⟩
  | assembleRgb | assembleRgba => exact ⟨_, rfl, assemble_completedFrom _ s⟩

theorem engineStep_completes (w : Word) (s : State) : ∃ t, engineStep w s = .next t ∧ CompletedFrom s t := by
  rcases engineStep_cases w s with ⟨i, _, he⟩ | ⟨_, _, he⟩ <;> rw [he]
  · exact exec_completes i s
  · exact ⟨_, rfl, completedFrom_complete ..⟩

/-- Bit 0 of `STATUS` is BUSY (spec/10_state.md R24). -/
theorem readReg_status_busy (s : State) : (readReg s .status).getLsbD 0 = s.busy := by
  simp only [readReg, State.status, statusOf, BitVec.getLsbD_append]
  simp

/-- Bit 1 of `STATUS` is DONE (spec/10_state.md R24). -/
theorem readReg_status_done (s : State) : (readReg s .status).getLsbD 1 = s.done := by
  simp only [readReg, State.status, statusOf, BitVec.getLsbD_append]
  simp

/-- Bits [31:4] of `STATUS` are the code (spec/10_state.md R24). -/
theorem readReg_status_err (s : State) : (readReg s .status).toNat / 16 = (errNibble s.err).toNat := by
  have hbusy := s.busy.toNat_le
  have hdone := s.done.toNat_le
  have hvalid := s.img.valid.toNat_le
  rw [readReg_status_toNat]
  omega

/-- Settles O9: `exec_completes` for a command, `engineStep_completes` for an engine step with the bits of `STATUS`, and
an error by its definition. -/
theorem everyCommandCompletesOnce : Obligations.EveryCommandCompletesOnce := by
  unfold Obligations.EveryCommandCompletesOnce
  refine ⟨fun i s => ?_, ?_, fun _ _ _ => rfl⟩
  · obtain ⟨_, hexec, u, c, rfl, hkept⟩ := exec_completes i s
    exact ⟨u, c, hexec, hkept⟩
  · rintro s w ⟨hclean, hp, hturn⟩
    obtain ⟨t, he, ht⟩ := engineStep_completes w s
    refine ⟨t, (step_engine hclean hp hturn).trans he, ht.pending, ht.done, ?_, ?_, readReg_status_err t⟩
    · rw [readReg_status_busy, State.busy_none t ht.pending]
    · rw [readReg_status_done, ht.done]

/-! ## The effects of an error -/

theorem step_illegal {s : State} {w : Word} {e : DecodeError} (h : EngineMoves s w) (hillegal : decode w = .error e) :
    step s = .next (s.complete .illegalCommand) := by
  obtain ⟨hclean, hp, hturn⟩ := h
  exact (step_engine hclean hp hturn).trans (engineStep_illegal s ⟨e, hillegal⟩)

/-- Settles O39: in each way a command ends, it succeeded or its result has the listed form; an illegal word by
`step_illegal`. -/
theorem errorsArePrecise : Obligations.ErrorsArePrecise := by
  unfold Obligations.ErrorsArePrecise
  refine ⟨fun v s t h herr => ?_, fun ch s t h herr => ?_, fun v s t h herr => ?_, fun s w e => step_illegal⟩
  · cases (exec_decodeCmd v s).symm.trans h
    rcases decodeImage_cases v s with ⟨_, hd⟩ | ⟨_, _, hd⟩ | ⟨_, _, _, hd⟩ | ⟨_, _, _, hd⟩ <;> rw [hd] at herr ⊢
    · rfl
    · rfl
    · rfl
    · exact absurd rfl herr
  · cases (exec_assembleCmd ch s).symm.trans h
    rcases assemble_cases ch s with ⟨_, ha⟩ | ⟨_, _, ha⟩ | ⟨_, _, ha⟩ <;> rw [ha] at herr ⊢
    · rfl
    · rfl
    · exact absurd rfl herr
  · cases (exec_parseCmd v s).symm.trans h
    rcases parseBlk_cases v s with ⟨_, hp⟩ | ⟨_, hp⟩ <;> rw [hp] at herr ⊢
    · rfl
    · exact absurd rfl herr

/-! ## The order of the checks -/

/-- ASSEMBLE checks for an image, then for room (spec/44_image_assembler.md R196). -/
theorem assemble_err (ch : Channels) (s : State) : (assemble ch s).err =
    if s.img.valid = false then .noImage
    else if s.regs.dstLen.toNat < outputLength s ch then .dstTooSmall else .ok := by
  rw [← outLen_eq_outputLength]
  rcases assemble_cases ch s with ⟨hnone, ha⟩ | ⟨hvalid, hsmall, ha⟩ | ⟨hvalid, hfits, ha⟩ <;> rw [ha]
  · simp [hnone]
  · simp [hvalid, hsmall]
  · simp [hvalid, hfits]

/-- PARSEBLK checks for a whole block (spec/42_block_parser.md R145). -/
theorem parseBlk_err (v : Variant) (s : State) : (parseBlk v s).err =
    if s.regs.srcLen.toNat < s.regs.arg0.toNat + bytesPerBlock v then .invalidData else .ok := by
  rw [← blockSize_eq_bytesPerBlock]
  split
  next hshort => rw [parseBlk_of_short hshort]
  next hfits => rw [parseBlk_of_fits (Nat.not_lt.mp hfits)]

/-- Settles O40: `step_illegal`, the four ways a DECODE ends, `assemble_err` and `parseBlk_err`; CVT565 and RECON have
no check. -/
theorem firstErrorIsReported : Obligations.FirstErrorIsReported := by
  unfold Obligations.FirstErrorIsReported
  refine ⟨fun s w e h hillegal => ⟨_, step_illegal h hillegal, rfl⟩, fun v s t h => ?_, fun ch s t h => ?_,
    fun v s t h => ?_, ?_⟩
  · cases (exec_decodeCmd v s).symm.trans h
    refine ⟨fun hzero => congrArg State.err (decodeImage_of_zero v hzero), fun hdim =>
      ⟨fun hshort => congrArg State.err (decodeImage_of_short hdim hshort), fun hlen =>
        ⟨fun m hcap hover => ?_, fun hcap => ?_⟩⟩⟩
    · exact congrArg State.err (decodeImage_of_over hdim hlen ((overCapacity_iff _ _).mpr ⟨m, hcap, hover⟩))
    · exact congrArg State.err (decodeImage_of_fits hdim hlen (overCapacity_eq_false_iff.mpr hcap))
  · cases (exec_assembleCmd ch s).symm.trans h
    exact assemble_err ch s
  · cases (exec_parseCmd v s).symm.trans h
    exact parseBlk_err v s
  · rintro s t (h | h) <;> cases h <;> rfl

/-! ## The end of a run -/

theorem State.ended_iff (s : State) : s.ended = true ↔ s.script = [] ∧ s.pending = none := by
  simp [State.ended, State.busy]

/-- Settles O55: with nothing pending the host moves, and it has no action left. -/
theorem endedRunKeepsItsState : Obligations.EndedRunKeepsItsState := by
  unfold Obligations.EndedRunKeepsItsState
  intro s hclean hended
  obtain ⟨hscript, hidle⟩ := (State.ended_iff s).mp hended
  rcases step_clean hclean with ⟨w, hp, _, _⟩ | ⟨_, hstep⟩
  · cases hidle.symm.trans hp
  · rcases hostStep_cases s with ⟨a, rest, hs, _⟩ | ⟨_, hhost⟩
    · cases hscript.symm.trans hs
    · exact hstep.trans hhost

end Sys2Proof.Machine
end

section
/-! PROOF. Reset and the order of steps (spec/70_reset_and_hazards.md R280 to R291): a decoded command is what the engine's
step does, an issue, the reads of an idle and of a busy block, the violations, polling to the completion, and reset. -/

namespace Sys2Proof.Machine

open Sys2Proof.Claims

/-! ## The engine's step -/

theorem engineStep_of_decode {w : Word} {i : Instr} (s : State) (h : decode w = .ok i) : engineStep w s = exec i s := by
  rw [engineStep, h]

theorem step_of_decode {s : State} {w : Word} {i : Instr} (hmoves : EngineMoves s w) (h : decode w = .ok i) :
    step s = exec i s := by
  obtain ⟨hclean, hp, hturn⟩ := hmoves
  exact (step_engine hclean hp hturn).trans (engineStep_of_decode s h)

theorem decodeTableWord_eq_some_iff {n w : Nat} {i : Instr} :
    decodeTableWord n w = some i ↔ decode (BitVec.ofNat 32 (w % 2 ^ n)) = .ok i := by
  unfold decodeTableWord
  cases decode (BitVec.ofNat 32 (w % 2 ^ n)) <;> simp

/-- A placed word is pending, with the engine next to move (log 4). -/
theorem engineMoves_withFetchWord (s : State) (n w : Nat) :
    EngineMoves (s.withFetchWord n w) (BitVec.ofNat 32 (w % 2 ^ n)) :=
  ⟨rfl, rfl, .inl rfl⟩

/-- Settles O8: the engine's step on a decoded word, which a placed word is by `engineMoves_withFetchWord`. -/
theorem stepPerformsTheDecodedCommand : Obligations.StepPerformsTheDecodedCommand := by
  unfold Obligations.StepPerformsTheDecodedCommand
  exact ⟨fun s w i => step_of_decode, fun s n w i h =>
    step_of_decode (engineMoves_withFetchWord s n w) (decodeTableWord_eq_some_iff.mp h)⟩

/-! ## The host's step -/

theorem step_of_hostMoves {s : State} {a : HostAct} {rest : List HostAct} (h : HostMoves s a rest) :
    step s = hostAct a (s.advance rest) := by
  obtain ⟨hclean, hscript, hturn⟩ := h
  exact step_host hclean hscript hturn

/-- A forbidden action of a host that moves sets the mark, and nothing else. -/
theorem step_forbidden {s : State} {a : HostAct} {rest : List HostAct} (h : HostMoves s a rest) (hbad : Forbidden s a) :
    step s = .next (s.advance rest).violate :=
  (step_of_hostMoves h).trans (hostAct_forbidden (forbidden_advance.mpr hbad))

/-- Settles O12: `step_cmdWrite_idle` is the issue, and while BUSY = 1 the write is forbidden. -/
theorem cmdWriteIssues : Obligations.CmdWriteIssues := by
  unfold Obligations.CmdWriteIssues
  exact ⟨fun s w rest hmoves hidle => ⟨_, _, step_cmdWrite_idle hmoves hidle⟩, fun s w rest hmoves hbusy =>
    ⟨_, step_forbidden hmoves (.inr (.inr hbusy)), rfl⟩⟩

/-! ## The violations -/

@[simp] theorem writeReg_violation (s : State) (r : RegName) (v : Word) : (writeReg s r v).violation = s.violation := by
  cases r <;> rfl

/-- A register write reaches an RW register of an idle block, unless it is forbidden. -/
theorem hostRegWrite_allowed {bits off : Nat} {v : Word} {s : State} (h : ¬Forbidden s (.regWrite bits off v)) :
    ∃ r, hostRegWrite bits off v s = .next (writeReg s r v) := by
  obtain ⟨hgood, hrest⟩ := not_or.mp h
  obtain ⟨hwritable, hidle⟩ := not_or.mp hrest
  rcases hostRegWrite_cases bits off v s with ⟨hwhy, _⟩ | ⟨r, _, _, _, hw⟩
  · exfalso
    rcases hwhy with hnone | ⟨r, hlegal, hro⟩ | hbusy
    · exact hgood (legalReg_eq_none_iff.mp hnone)
    · exact hwritable ⟨r, regOffset_of_regAt (regAt_of_legalReg hlegal), regAccess_eq_ro_iff.mp hro⟩
    · exact hidle (busy_iff.mp hbusy)
  · exact ⟨r, hw⟩

/-- An action that is not forbidden leaves the mark. -/
theorem hostAct_allowed_violation {a : HostAct} {s t : State} (hok : ¬Forbidden s a) (h : hostAct a s = .next t) :
    t.violation = s.violation := by
  cases a with
  | regRead bits off =>
    rcases hostRegRead_cases bits off s with ⟨hnone, _⟩ | ⟨_, _, _, _, hr⟩ | ⟨_, _, _, hr⟩
    · exact absurd (legalReg_eq_none_iff.mp hnone) hok
    · cases hr.symm.trans h; rfl
    · cases hr.symm.trans h; rfl
  | regWrite bits off v =>
    obtain ⟨r, hw⟩ := hostRegWrite_allowed hok
    cases hw.symm.trans h
    exact writeReg_violation s r v
  | poll => rcases hostPoll_cases s with ⟨_, hp⟩ | ⟨_, hp⟩ <;> cases hp.symm.trans h <;> rfl
  | srcWrite off bytes =>
    rcases hostSrcWrite_cases off bytes s with ⟨hbusy, _⟩ | ⟨_, _, hw⟩ | ⟨_, _, hw⟩
    · exact absurd (busy_iff.mp hbusy) hok
    · cases hw.symm.trans h; rfl
    · cases hw.symm.trans h
  | dstRead off n =>
    rcases hostDstRead_cases off n s with ⟨_, _, hr⟩ | ⟨_, _, hr⟩ | ⟨_, hr⟩ <;> cases hr.symm.trans h <;> rfl
  | dstWrite off bytes =>
    rcases hostDstWrite_cases off bytes s with ⟨hbusy, _⟩ | ⟨_, _, hw⟩ | ⟨_, _, hw⟩
    · exact absurd (busy_iff.mp hbusy) hok
    · cases hw.symm.trans h; rfl
    · cases hw.symm.trans h
  | reset => cases h; rfl

/-- Settles O45: `step_forbidden`, `hostAct_allowed_violation`, and a marked run by `step_marked`. -/
theorem violationsAreMarkedAndFault : Obligations.ViolationsAreMarkedAndFault := by
  unfold Obligations.ViolationsAreMarkedAndFault
  refine ⟨fun s a rest hmoves hbad => ⟨_, step_forbidden hmoves hbad, rfl⟩, ?_, ?_⟩
  · intro s a rest t hmoves hok hstep
    have hact := (step_of_hostMoves hmoves).symm.trans hstep
    obtain ⟨hclean, -⟩ := hmoves
    exact (hostAct_allowed_violation (mt forbidden_advance.mp hok) hact).trans hclean
  · intro s hmark hnot
    rcases step_marked hmark with ⟨rest, hs, _⟩ | ⟨_, hfault⟩
    · exact absurd hs (hnot rest)
    · exact hfault

/-! ## Reads -/

/-- A read of a register whose value is known records it: every register of an idle block, and `STATUS` and `CMD` of a busy
one (spec/70_reset_and_hazards.md R288, R289). -/
theorem hostRegRead_known {s : State} {r : RegName} (h : s.busy = false ∨ knownWhileBusy r = true) :
    hostRegRead 32 (regOffset r) s = .next (s.record (.reg (regOffset r) (readReg s r))) := by
  simp only [hostRegRead, legalReg_regOffset]
  rcases h with h | h <;> simp [h]

theorem hostRegRead_unknown {s : State} {r : RegName} (hbusy : s.busy = true) (h : knownWhileBusy r = false) :
    hostRegRead 32 (regOffset r) s = .next ((s.draw 1).record (.reg (regOffset r) (Config.freeWord s.draws))) := by
  simp [hostRegRead, hbusy, h]

theorem knownWhileBusy_eq_false {r : RegName} (hstatus : r ≠ .status) (hcmd : r ≠ .cmd) : knownWhileBusy r = false := by
  cases r with
  | status => exact absurd rfl hstatus
  | cmd => exact absurd rfl hcmd
  | _ => rfl

theorem step_regRead_known {s : State} {r : RegName} {rest : List HostAct}
    (hmoves : HostMoves s (.regRead 32 (regOffset r)) rest) (h : s.busy = false ∨ knownWhileBusy r = true) :
    step s = .next ((s.advance rest).record (.reg (regOffset r) (readReg s r))) := by
  rw [← readReg_advance s rest]
  exact (step_of_hostMoves hmoves).trans (hostRegRead_known h)

theorem hostDstRead_idle {off n : Nat} {s : State} (hidle : s.busy = false) (hin : off + n ≤ 2 ^ 32) :
    hostDstRead off n s = .next (s.record (.dst off (memSlice s.dst off n))) := by
  rw [hostDstRead, if_pos (inSpace_iff.mpr hin), if_neg (by simp [hidle])]

theorem hostDstRead_busy {off n : Nat} {s : State} (hbusy : s.busy = true) (hin : off + n ≤ 2 ^ 32) :
    hostDstRead off n s = .next ((s.draw n).record (.dst off (freeBytes s.draws n))) := by
  rw [hostDstRead, if_pos (inSpace_iff.mpr hin), if_pos hbusy]

theorem memSlice_getElem? (m : List Host.Cell) (off : Nat) {n k : Nat} (hk : k < n) :
    (memSlice m off n)[k]? = some (memByte m (off + k)) := by
  simp [memSlice, hk]

/-- Settles O47: `step_regRead_known` of an idle block, and the slice that `hostDstRead_idle` records. -/
theorem idleReadsGiveStoredValues : Obligations.IdleReadsGiveStoredValues := by
  unfold Obligations.IdleReadsGiveStoredValues
  refine ⟨fun s r rest hmoves hidle => ⟨_, step_regRead_known hmoves (.inl (State.busy_none s hidle))⟩, ?_⟩
  intro s off n rest hmoves hidle hin
  have hread := hostDstRead_idle (s := s.advance rest) (State.busy_none _ hidle) hin
  exact ⟨_, _, (step_of_hostMoves hmoves).trans hread, memSlice_length _ _ _, fun k => memSlice_getElem? _ _⟩

/-- Settles O48: `STATUS` and `CMD` are known, with the values of O11; any other read draws its value. -/
theorem busyReadsAreFree : Obligations.BusyReadsAreFree := by
  unfold Obligations.BusyReadsAreFree
  refine ⟨?_, ?_, ?_, ?_⟩
  · intro s w rest hinv hp hmoves
    obtain ⟨hstatus, -⟩ := busyStatusWhilePending s w hinv hp
    exact ⟨_, _, step_regRead_known (r := .status) hmoves (.inr rfl), hstatus⟩
  · intro s w rest hinv hp hmoves
    obtain ⟨-, hcmd⟩ := busyStatusWhilePending s w hinv hp
    rw [← hcmd]
    exact ⟨_, step_regRead_known (r := .cmd) hmoves (.inr rfl)⟩
  · intro s r rest hbusy hstatus hcmd hmoves
    have hread := hostRegRead_unknown (s := s.advance rest) (busy_iff.mpr hbusy) (knownWhileBusy_eq_false hstatus hcmd)
    exact ⟨_, _, _, (step_of_hostMoves hmoves).trans hread⟩
  · intro s off n rest hbusy hmoves hin
    have hread := hostDstRead_busy (s := s.advance rest) (busy_iff.mpr hbusy) hin
    exact ⟨_, _, _, freeBytes_length _ _, (step_of_hostMoves hmoves).trans hread⟩

/-! ## Polling to the completion -/

theorem run_succ {s t : State} (n : Nat) (h : step s = .next t) :
    Host.Core.run core (n + 1) s = Host.Core.run core n t := by
  have hcore : core.step s = .next t := h
  simp only [Host.Core.run, hcore]

/-- Polling a pending command uses up its delay, a step for each, and changes nothing else (log 3). -/
theorem run_poll {s : State} {rest : List HostAct} (hclean : s.violation = false) (hbusy : s.pending ≠ none)
    (hscript : s.script = .poll :: rest) (m : Nat) :
    Host.Core.run core (s.delay + m) s = Host.Core.run core m { s with delay := 0 } := by
  induction hdelay : s.delay generalizing s with
  | zero => rw [Nat.zero_add, ← hdelay]
  | succ n ih =>
    have hstep := step_poll_busy ⟨hclean, hscript, .inr (by omega)⟩ hbusy
    rw [Nat.succ_add, run_succ _ hstep]
    exact ih hclean hbusy hscript (by simp [hdelay])

theorem engineStep_script {w : Word} {s t : State} (h : engineStep w s = .next t) : t.script = s.script := by
  rcases engineStep_cases w s with ⟨i, _, hw⟩ | ⟨_, _, hw⟩
  · exact (exec_hostSideKept (hw.symm.trans h)).script
  · cases hw.symm.trans h
    rfl

/-- Settles O56: `run_poll`, by induction on the delay, and the completion the engine's step then makes. -/
theorem pollingReachesTheCompletion : Obligations.PollingReachesTheCompletion := by
  unfold Obligations.PollingReachesTheCompletion
  intro s w rest hclean hp hscript
  have hpoll := run_poll hclean (by simp [hp]) hscript
  obtain ⟨t, hengine, ht⟩ := engineStep_completes w { s with delay := 0 }
  have hstep := (step_engine (s := { s with delay := 0 }) hclean hp (.inl rfl)).trans hengine
  exact ⟨hpoll 0, t, (hpoll 1).trans (run_succ 0 hstep), ht.pending, ht.done, (engineStep_script hengine).trans hscript⟩

/-! ## Reset -/

/-- A reset is performed in the host's turn, and after a violation at any time. -/
theorem step_reset {s : State} {rest : List HostAct} (hscript : s.script = .reset :: rest)
    (h : s.violation = true ∨ s.pending = none ∨ s.delay ≠ 0) : step s = .next (s.advance rest).resetBlock := by
  cases hv : s.violation with
  | true =>
    rcases step_marked hv with ⟨rest', hs, hstep⟩ | ⟨hnot, _⟩
    · cases hscript.symm.trans hs
      exact hstep
    · exact absurd hscript (hnot rest)
  | false => exact step_host hv hscript (h.resolve_left (by simp [hv]))

theorem abandonedBytes_idle {s : State} (hidle : s.pending = none) : abandonedBytes s = 0 := by
  rw [abandonedBytes, hidle]

theorem abandonedBytes_of_illegal {s : State} {w : Word} {e : DecodeError} (hp : s.pending = some w)
    (h : decode w = .error e) : abandonedBytes s = 0 := by
  simp only [abandonedBytes, hp, h]

/-- What an abandoned command could have written: `min(out_len, DST_LEN)` bytes for an ASSEMBLE, and none for another. -/
theorem abandonedBytes_of_decode {s : State} {w : Word} {i : Instr} (hp : s.pending = some w) (h : decode w = .ok i) :
    abandonedBytes s = (destChannels i).elim 0 fun ch => min (outputLength s ch) s.regs.dstLen.toNat := by
  simp only [abandonedBytes, hp, h, ← outLen_eq_outputLength]
  cases destChannels i <;> rfl

/-- A reset leaves the bytes of DST at or past those the abandoned command could have written. -/
theorem memByte_resetBlock_dst {s : State} {off : Nat} (hm : memWf s.dst = true) (h : abandonedBytes s ≤ off) :
    memByte s.resetBlock.dst off = memByte s.dst off := by
  have hfew := abandonedBytes_le_dstLen s
  have hdstLen := s.regs.dstLen.isLt
  have hlen := freeBytes_length s.draws (abandonedBytes s)
  exact memByte_memStoreAll_outside hm (by omega) (by omega)

theorem resetBlock_dst_idle {s : State} (hidle : s.pending = none) : s.resetBlock.dst = s.dst := by
  rw [State.resetBlock_dst, abandonedBytes_idle hidle]
  rfl

@[simp] theorem readReg_reset (r : RegName) : readReg State.reset r = 0 := by
  cases r with
  | tile k => exact Vector.getElem_replicate k.isLt
  | _ => rfl

/-- Settles O53: `readReg_reset`, and `step_reset`, which keeps the DST of an idle block. -/
theorem resetState : Obligations.ResetState := by
  unfold Obligations.ResetState
  exact ⟨readReg_reset, rfl, rfl, fun s rest hscript hturn =>
    ⟨_, _, step_reset hscript hturn, fun hidle => resetBlock_dst_idle (s := s.advance rest) hidle⟩⟩

/-- Settles O54: the statement's bound is `abandonedBytes`, past which `memByte_resetBlock_dst` keeps DST. -/
theorem resetAbandonsTheCommand : Obligations.ResetAbandonsTheCommand := by
  unfold Obligations.ResetAbandonsTheCommand
  rintro s w rest n ⟨_, hscript, hturn⟩ hp hm hn
  have hbound : abandonedBytes s = n := by
    cases hd : decode w with
    | error e => rw [abandonedBytes_of_illegal hp hd, hn, hd]
    | ok i =>
      rw [abandonedBytes_of_decode hp hd, hn, hd]
      cases i <;> rfl
  exact ⟨_, _, step_reset hscript (.inr hturn), fun off hoff =>
    memByte_resetBlock_dst (s := s.advance rest) hm (hbound.trans_le hoff)⟩

/-- Settles O58: the byte spaces and the store are empty, and nothing is pending. -/
theorem invariantAtReset : Obligations.InvariantAtReset :=
  ⟨memWf_nil, memWf_nil, storeWf_empty, capacityWf_empty _, rfl⟩

end Sys2Proof.Machine
end
